-- ==== Sys2Proof/Word.lean ====
section
/-! DEFINITION. The machine's words: a byte (R10), the 24-bit argument (R9), the 32-bit command word (R52)
and the 11-bit key of a COBS byte row (the table's `K`, R64). Every value is unsigned (R13). -/

namespace Sys2Proof

/-- A byte of storage, of the input stream or of the payload (R10). -/
abbrev Byte := BitVec 8

/-- The command argument `ARG`, and a response value: `ARG_BITS = 24` (R9). -/
abbrev Arg := BitVec 24

/-- A command word (R52). -/
abbrev CmdWord := BitVec 32

/-- The key `K = (DS << 9) | (P << 8) | b` of a COBS byte row (R64). -/
abbrev Key := BitVec 11

end Sys2Proof
end

