-- ==== Sys2Proof/Config.lean ====
section
/-! DEFINITION. What an implementation fixes, and the one free value. -/

namespace Sys2Proof.Config

/-- The least capacity: with `N >= 2` no state is both empty and full (R8, R20). -/
def minCapacity : Nat := 2

/-- The greatest capacity, `2^ARG_BITS` (R8, R9). -/
def maxCapacity : Nat := 16777216

/-- `MAX_RUN`, the longest payload run of one chunk (R12). -/
def maxRun : Nat := 254

/-- The capacity of `State.reset`. DESIGN CHOICE (log entry 1): the spec leaves `N` open (R8, D1); 8 is what
its test vectors use. No statement rests on it: capacity is a field of the state. -/
def resetCapacity : Nat := 8

/-- The contents of the storage after reset, which the spec leaves unspecified (R34; U1: any value): the byte at
an offset, for each reset of the block. A FREE VALUE: it has no body, and nothing can evaluate it (log entry 2). -/
opaque storageAtReset : Nat → Nat → Byte

end Sys2Proof.Config
end

