-- ==== Sys2Proof/Syntax.lean ====
section
/-! DEFINITION. The instructions: one constructor per row of spec/opcode_table.json. The nine commands (R53)
carry their operand as the word's field; the thirteen COBS byte rows (R64) carry the byte where the row leaves it open. -/

namespace Sys2Proof

inductive Instr
  /-- `BUF_AVAIL_READ` (R71). -/
  | bufAvailRead
  /-- `BUF_AVAIL_WRITE` (R72). -/
  | bufAvailWrite
  /-- `BUF_READ max_len` (R74). -/
  | bufRead (maxLen : Arg)
  /-- `BUF_WRITE`, `len` bytes of `SRC` (R73). -/
  | bufWrite (len : Arg)
  /-- `DEC_RESET dest_len` (R97). -/
  | decReset (destLen : Arg)
  /-- `DEC_FEED b` (R99). -/
  | decFeed (b : Byte)
  /-- `DEC_PUSH`, `len` bytes of `SRC` (R100). -/
  | decPush (len : Arg)
  /-- `READ_PACKET dest_len` (R111). -/
  | readPacket (destLen : Arg)
  /-- `DEC_STATUS` (R101). -/
  | decStatus
  /-- T1: `Idle`, `0x00` (R80). -/
  | cobsT1
  /-- T2: `Idle`, `0xFF` (R81). -/
  | cobsT2
  /-- T3: `Idle`, `0x01`..`0xFE` (R82). -/
  | cobsT3 (b : Byte)
  /-- T4: `Grab`, `DR = 0`, `0x00` (R83). -/
  | cobsT4
  /-- T5: `Grab`, `DR = 0`, `0xFF` (R84). -/
  | cobsT5
  /-- T6: `Grab`, `DR = 0`, `0x01`..`0xFE` (R85). -/
  | cobsT6 (b : Byte)
  /-- T7: `Grab`, `DR > 0`, `0x00` (R86). -/
  | cobsT7
  /-- T8: `Grab`, `DR > 0`, `0x01`..`0xFF` (R87). -/
  | cobsT8 (b : Byte)
  /-- T9: `GrabChain`, `DR = 0`, `0x00` (R88). -/
  | cobsT9
  /-- T10: `GrabChain`, `DR = 0`, `0xFF` (R89). -/
  | cobsT10
  /-- T11: `GrabChain`, `DR = 0`, `0x01`..`0xFE` (R90). -/
  | cobsT11 (b : Byte)
  /-- T12: `GrabChain`, `DR > 0`, `0x00` (R91). -/
  | cobsT12
  /-- T13: `GrabChain`, `DR > 0`, `0x01`..`0xFF` (R92). -/
  | cobsT13 (b : Byte)
  deriving DecidableEq, Repr

end Sys2Proof
end

