-- ==== Sys2Proof/WellFormed.lean ====
section
/-! DEFINITION. Which terms of `Instr` stand for an instruction. A command's operand is exactly the word's field,
so every command term is one; a row's byte must lie in the row's byte class (R63, R64). -/

namespace Sys2Proof

/-- The class `OTHER` at a header position: `0x01`..`0xFE` (R63). -/
abbrev otherAtHeader (b : Byte) : Prop := b ≠ 0x00 ∧ b ≠ 0xFF

/-- The class `OTHER` at a payload position: `0x01`..`0xFF` (R63). -/
abbrev otherAtPayload (b : Byte) : Prop := b ≠ 0x00

/-- The term stands for an instruction. -/
abbrev Instr.WellFormed : Instr → Prop
  | .bufAvailRead => True
  | .bufAvailWrite => True
  | .bufRead _ => True
  | .bufWrite _ => True
  | .decReset _ => True
  | .decFeed _ => True
  | .decPush _ => True
  | .readPacket _ => True
  | .decStatus => True
  | .cobsT1 => True
  | .cobsT2 => True
  | .cobsT3 b => otherAtHeader b
  | .cobsT4 => True
  | .cobsT5 => True
  | .cobsT6 b => otherAtHeader b
  | .cobsT7 => True
  | .cobsT8 b => otherAtPayload b
  | .cobsT9 => True
  | .cobsT10 => True
  | .cobsT11 b => otherAtHeader b
  | .cobsT12 => True
  | .cobsT13 b => otherAtPayload b

end Sys2Proof
end

