-- ==== Sys2Proof/Decode.lean ====
section
/-! DEFINITION. The decoder of command words (R52 to R54, R59, R60) and of COBS keys (R62 to R64), and the encoder.
The port words have no byte order (R40), so both read bit fields. -/

namespace Sys2Proof

/-- Why a word or a key spells no instruction. -/
inductive DecodeError
  /-- `OPC` is `0x00` or `0x0A`..`0xFF` (R54). -/
  | reservedOpcode (opc : Byte)
  /-- `ARG` breaks the "must be 0" condition of its opcode (R53, R54). -/
  | reservedArgument (opc : Byte) (arg : Arg)
  /-- `K[10:9] = 3`: no decoder state has that code (R58). -/
  | reservedState
  deriving DecidableEq, Repr

/-- `OPC = word[7:0]` (R52). -/
def opcodeOf (w : CmdWord) : Byte := w.extractLsb' 0 8

/-- `ARG = word[31:8]` (R52). -/
def argOf (w : CmdWord) : Arg := w.extractLsb' 8 24

/-- `word = (ARG << 8) | OPC` (R52). -/
def wordOf (arg : Arg) (opc : Byte) : CmdWord := arg ++ opc

/-- An opcode whose `ARG` must be 0 (R53). -/
def noArgument (w : CmdWord) (i : Instr) : Except DecodeError Instr :=
  if argOf w = 0 then .ok i else .error (.reservedArgument (opcodeOf w) (argOf w))

/-- `DEC_FEED`: `b = ARG[7:0]`, and `ARG[23:8]` must be 0 (R60). -/
def byteArgument (w : CmdWord) : Except DecodeError Instr :=
  if (argOf w).extractLsb' 8 16 = 0 then .ok (.decFeed ((argOf w).extractLsb' 0 8))
  else .error (.reservedArgument (opcodeOf w) (argOf w))

/-- The opcode map (R53); every other opcode is reserved (R54). -/
def decode (w : CmdWord) : Except DecodeError Instr :=
  match (opcodeOf w).toNat with
  | 0x01 => noArgument w .bufAvailRead
  | 0x02 => noArgument w .bufAvailWrite
  | 0x03 => .ok (.bufRead (argOf w))
  | 0x04 => .ok (.bufWrite (argOf w))
  | 0x05 => .ok (.decReset (argOf w))
  | 0x06 => byteArgument w
  | 0x07 => .ok (.decPush (argOf w))
  | 0x08 => .ok (.readPacket (argOf w))
  | 0x09 => noArgument w .decStatus
  | _ => .error (.reservedOpcode (opcodeOf w))

/-- `K[10:9]`, the code of `DS` (R58, R64). -/
def keyState (k : Key) : BitVec 2 := k.extractLsb' 9 2

/-- `K[8]`: `DR > 0` (R64). -/
def keyPositive (k : Key) : Bool := k.getLsbD 8

/-- `K[7:0]`: the byte (R64). -/
def keyByte (k : Key) : Byte := k.extractLsb' 0 8

/-- `K = (DS << 9) | (P << 8) | b` (R64). -/
def keyOf (ds : BitVec 2) (p : Bool) (b : Byte) : Key := ds ++ BitVec.ofBool p ++ b

/-- The rows of a header position in their order: `0x00`, then `0xFF`, then the rest (R64). -/
def headerRow (b : Byte) (zero ff : Instr) (other : Byte → Instr) : Instr :=
  if b = 0x00 then zero else if b = 0xFF then ff else other b

/-- The rows of a payload position: `0x00`, then the rest (R64). -/
def payloadRow (b : Byte) (zero : Instr) (other : Byte → Instr) : Instr :=
  if b = 0x00 then zero else other b

/-- The row a key selects: state, then `DR = 0`, then the byte's class (R64). `Idle` ignores `K[8]`. -/
def decodeKey (k : Key) : Except DecodeError Instr :=
  match (keyState k).toNat with
  | 0 => .ok (headerRow (keyByte k) .cobsT1 .cobsT2 .cobsT3)
  | 1 => .ok (if keyPositive k then payloadRow (keyByte k) .cobsT7 .cobsT8
      else headerRow (keyByte k) .cobsT4 .cobsT5 .cobsT6)
  | 2 => .ok (if keyPositive k then payloadRow (keyByte k) .cobsT12 .cobsT13
      else headerRow (keyByte k) .cobsT9 .cobsT10 .cobsT11)
  | _ => .error .reservedState

/-- What an instruction is encoded in: a command word, or a COBS key. -/
inductive Encoded
  | word (w : CmdWord)
  | key (k : Key)
  deriving DecidableEq, Repr

/-- The decoder on either encoding. -/
def decodeEncoded : Encoded → Except DecodeError Instr
  | .word w => decode w
  | .key k => decodeKey k

/-- The encoding of a well-formed instruction (R52, R53, R60; R64). `Idle` has `DR = 0` (R27), so its rows get `P = 0`. -/
def encode : Instr → Encoded
  | .bufAvailRead => .word (wordOf 0 0x01)
  | .bufAvailWrite => .word (wordOf 0 0x02)
  | .bufRead maxLen => .word (wordOf maxLen 0x03)
  | .bufWrite len => .word (wordOf len 0x04)
  | .decReset destLen => .word (wordOf destLen 0x05)
  | .decFeed b => .word (wordOf (0#16 ++ b) 0x06)
  | .decPush len => .word (wordOf len 0x07)
  | .readPacket destLen => .word (wordOf destLen 0x08)
  | .decStatus => .word (wordOf 0 0x09)
  | .cobsT1 => .key (keyOf 0 false 0x00)
  | .cobsT2 => .key (keyOf 0 false 0xFF)
  | .cobsT3 b => .key (keyOf 0 false b)
  | .cobsT4 => .key (keyOf 1 false 0x00)
  | .cobsT5 => .key (keyOf 1 false 0xFF)
  | .cobsT6 b => .key (keyOf 1 false b)
  | .cobsT7 => .key (keyOf 1 true 0x00)
  | .cobsT8 b => .key (keyOf 1 true b)
  | .cobsT9 => .key (keyOf 2 false 0x00)
  | .cobsT10 => .key (keyOf 2 false 0xFF)
  | .cobsT11 b => .key (keyOf 2 false b)
  | .cobsT12 => .key (keyOf 2 true 0x00)
  | .cobsT13 b => .key (keyOf 2 true b)

/-- The bits of a row of the opcode table as an encoding: the table's 32-bit rows are command words, its 11-bit keys
fill two bytes. A key is `K[10:0]` (R64): bits above 10 of a two-byte word are no part of it (log entry 8). -/
def tableWord (nbits w : Nat) : Encoded :=
  if nbits = 16 then .key (BitVec.ofNat 11 w) else .word (BitVec.ofNat 32 (w % 2 ^ nbits))

/-- The instruction the decoder reads from the bits of a row of the opcode table. -/
def decodeTableWord (nbits w : Nat) : Option Instr :=
  (decodeEncoded (tableWord nbits w)).toOption

end Sys2Proof
end

