-- ==== Sys2Proof/Machine/State.lean ====
section
/-! DEFINITION. The state of the block (10_state.md) and of its boundary, the reasons a step can stop, and the
state after reset. INVENTORY.md lists every field with its rule and its reset value. -/

namespace Sys2Proof.Machine

/-- Bytes by address: addresses strictly rising, one entry an address. An address with no entry has no value here. -/
abbrev Memory := List Host.Cell

/-- `DS`: the decoder state (R23). -/
inductive DecState
  /-- No partial chunk pending: the next byte is a chunk-length header. -/
  | idle
  /-- Inside a chunk shorter than 254 bytes. -/
  | grab
  /-- Inside a 254-byte chunk. -/
  | grabChain
  deriving DecidableEq, Repr

/-- The decoder's registers `(DS, DR, DI, DL)` (R23 to R26). `READ_PACKET`'s transient session `(ts, tr, ti, tl)` has
the same shape (R28). Counts are natural numbers that never wrap (R14). -/
structure Decoder where
  ds : DecState
  /-- `remaining` (R24). -/
  dr : Nat
  /-- `dest_idx` (R25). -/
  di : Nat
  /-- `dest_len` (R26). -/
  dl : Nat
  deriving DecidableEq, Repr

/-- `SRC`: the bytes the host supplies with a command, fixed when it is issued (R37, R46), and where they stand. -/
structure SrcRegion where
  base : Nat
  bytes : List Byte
  deriving DecidableEq, Repr

/-- `DST`: where the host's output region of a command stands, and its length (R38, R61). -/
structure DstRegion where
  base : Nat
  cap : Nat
  deriving DecidableEq, Repr

/-- The error kinds (R57). -/
inductive ErrorKind
  | prematureZero
  | destOverflow
  deriving DecidableEq, Repr

/-- The four results of one decoder step (41_cobs_decoder.md, introduction). -/
inductive StepResult
  | noData
  | emitByte (b : Byte)
  | packetComplete (length : Nat)
  | error (kind : ErrorKind)
  deriving DecidableEq, Repr

/-- The response codes (R56). -/
inductive RespCode
  | ok
  | noData
  | emit
  | complete
  | error
  | pushComplete
  | pushError
  | pushIncomplete
  | rpOk
  | rpNoBytes
  | rpIncomplete
  | rpCorrupt
  | status
  deriving DecidableEq, Repr

/-- A response `(CODE, V0, V1)` (R55). -/
structure Response where
  code : RespCode
  v0 : Arg
  v1 : Arg
  deriving DecidableEq, Repr

/-- What the response port drives in one step. No register keeps it (R30), and no step reads it (log entry 5). -/
inductive PortOut
  | nothing
  /-- The response of a command (R55). -/
  | response (r : Response)
  /-- The result of a COBS byte row run on its own (R96). -/
  | result (r : StepResult)
  deriving DecidableEq, Repr

/-- A command as the host issues it: its word and its regions (R52), and whether the host issued it while another
command was still executing (R144). -/
structure Request where
  word : CmdWord
  src : SrcRegion
  dst : DstRegion
  overlapping : Bool
  deriving DecidableEq, Repr

/-- What the host does to the block next (R47, R70, R141). -/
inductive HostEvent
  | command (r : Request)
  /-- One byte for the decoder leaf alone (R2): it runs the row of the opcode table that the byte selects (log entry 7). -/
  | cobsByte (b : Byte) (dst : DstRegion)
  | assertReset
  | releaseReset
  deriving DecidableEq, Repr

/-- The reset input (R141, R142; log entry 11). -/
inductive ResetLine
  | beforeFirst
  | asserted
  | released
  deriving DecidableEq, Repr

/-- The block and its boundary. -/
structure State where
  /-- `N`, fixed at build time (R8). -/
  cap : Nat
  /-- `S[0..N-1]` as far as `BUF_WRITE` has written it since reset (R18, R34). -/
  store : Memory
  /-- `write_cursor` (R19). -/
  wc : Nat
  /-- `read_cursor` (R19). -/
  rc : Nat
  /-- `(DS, DR, DI, DL)` (R23 to R26). -/
  dec : Decoder
  /-- The reset input (R141). -/
  line : ResetLine
  /-- `SRC` of the command at the port (R37). -/
  src : SrcRegion
  /-- `DST` of the command at the port (R38). -/
  dst : DstRegion
  /-- The host's memory as far as the block has written it through `DST` regions (R38, R44). -/
  hostMem : Memory
  /-- The host's events to come, in the order it issues them (R47). The model's own field (log entry 4). -/
  pending : List HostEvent
  /-- What the response port drove in the last step (R55). The model's own field (log entry 5). -/
  out : PortOut
  /-- How many resets there have been. The model's own field: the free value's counter (log entry 3). -/
  epoch : Nat
  deriving DecidableEq, Repr

/-- Why the machine stops with a fault: never. "The block has no trap, no exception vector, no handler and no
fault state" (R127), so there is no constructor. -/
inductive Fault
  deriving DecidableEq, Repr

/-- Why the machine gives an input no transition: the spec's treatment `refuse` (93_implementation_defined.md). -/
inductive Refusal
  /-- Raised by `exec` for an instruction with no meaning yet; here by none. Safe. -/
  | notModelled (mnemonic : String)
  /-- Raised by `step` for a word or key that spells no instruction (R54, U2). Safe: hardware may do anything. -/
  | reserved (e : DecodeError)
  /-- Raised by `step` for an input before the first reset (R142, U8). Safe. -/
  | beforeFirstReset
  /-- Raised by `step` for an input while reset is asserted (R142, U8). Safe. -/
  | resetAsserted
  /-- Raised by `step` for a command issued while another was executing (R144, U3). Safe. -/
  | overlappingCommand
  /-- Raised by `BUF_WRITE` and `DEC_PUSH` when `SRC` does not hold exactly `len` bytes (R61, D22, U4). Safe. -/
  | srcLength
  /-- Raised by the commands that write `DST`, and by T8 and T13, when it is shorter than its capacity (R61, U4). Safe. -/
  | dstTooShort
  /-- Raised by `DEC_PUSH` when `DST` overlaps the `SRC` it reads (R46, U4). Safe. -/
  | dstOverlapsSrc
  /-- Raised by a COBS row run where its key does not select it (R64; log entry 7). Safe. -/
  | rowNotSelected
  deriving DecidableEq, Repr

/-- The decoder's registers after reset (R35). -/
def Decoder.reset : Decoder := { ds := .idle, dr := 0, di := 0, dl := 0 }

/-- The machine of capacity `n` right after reset (R33 to R35, R141), with nothing for it to do yet. -/
def State.resetWith (n : Nat) : State where
  cap := n
  store := []
  wc := 0
  rc := 0
  dec := Decoder.reset
  line := .released
  src := { base := 0, bytes := [] }
  dst := { base := 0, cap := 0 }
  hostMem := []
  pending := []
  out := .nothing
  epoch := 0

/-- The machine right after reset. Its capacity is DESIGN CHOICE (log entry 1). -/
def State.reset : State := State.resetWith Config.resetCapacity

end Sys2Proof.Machine
end

