-- ==== Sys2Proof/Machine/Flags.lean ====
section
/-! DEFINITION. The block has no flag (R30): what a command reports is its response. Here are the numbers of a
response (R55 to R58) and the one place that drives the response port. -/

namespace Sys2Proof.Machine

/-- The three outcomes of an instruction. -/
abbrev Result := Host.Outcome State Fault Refusal

/-- The two-bit code of `DS` (R58). -/
def DecState.code : DecState → BitVec 2
  | .idle => 0
  | .grab => 1
  | .grabChain => 2

/-- The number of an error kind (R57). -/
def ErrorKind.number : ErrorKind → Nat
  | .prematureZero => 1
  | .destOverflow => 2

/-- `CODE`, 8 bits (R55, R56). -/
def RespCode.number : RespCode → Byte
  | .ok => 0x00
  | .noData => 0x10
  | .emit => 0x11
  | .complete => 0x12
  | .error => 0x13
  | .pushComplete => 0x20
  | .pushError => 0x21
  | .pushIncomplete => 0x22
  | .rpOk => 0x30
  | .rpNoBytes => 0x31
  | .rpIncomplete => 0x32
  | .rpCorrupt => 0x33
  | .status => 0x40

/-- A response from natural numbers, which fit their 24-bit fields (R110; log entry 18). -/
def Response.of (code : RespCode) (v0 v1 : Nat) : Response :=
  { code := code, v0 := BitVec.ofNat 24 v0, v1 := BitVec.ofNat 24 v1 }

/-- `respond(CODE, v0, v1)` (R16): drive the response port. -/
def State.respond (s : State) (code : RespCode) (v0 v1 : Nat) : State :=
  { s with out := .response (Response.of code v0 v1) }

/-- `STATUS`'s `V0`: the code of `DS` in `[7:0]`, `DR` in `[15:8]` (R56, R101). -/
def statusWord (d : Decoder) : Nat := d.ds.code.toNat ||| (d.dr <<< 8)

end Sys2Proof.Machine
end

