-- ==== Sys2Proof/Machine/Ops.lean ====
section
/-! DEFINITION. The named operations over memory, cursors and decoder registers. The block has no exception to take
(R127); what stands in its place, the error result that a row gives and the recovery the block is in afterwards, is
`fail` (R95), one operation for every row. -/

namespace Sys2Proof.Machine

/-! ## Memory, one byte at a time (R41) -/

/-- The byte at an address, if it has an entry. -/
def Memory.read : Memory → Nat → Option Byte
  | [], _ => none
  | (k, v) :: m, a => if k = a then some v else Memory.read m a

/-- `MemWrite(SPACE:a, 1, v)` (R16), keeping addresses rising. -/
def Memory.write : Memory → Nat → Byte → Memory
  | [], a, v => [(a, v)]
  | (k, w) :: m, a, v =>
    if a < k then (a, v) :: (k, w) :: m
    else if a = k then (a, v) :: m
    else (k, w) :: Memory.write m a v

/-- Consecutive bytes from an address on, in increasing order (R42). -/
def Memory.writeBytes : Memory → Nat → List Byte → Memory
  | m, _, [] => m
  | m, a, b :: bs => Memory.writeBytes (m.write a b) (a + 1) bs

/-- The canonical form: addresses strictly rising. Unlisted addresses have no value, so no entry can equal one. -/
abbrev Memory.wf (m : Memory) : Prop := m.Pairwise (fun x y => x.1 < y.1)

/-! ## The circular buffer -/

/-- `fwd(a, b) = (b - a) mod N`, the residue also for `b < a` (R14). -/
def fwd (n a b : Nat) : Nat := (b + (n - a % n)) % n

/-- `occ`, the number of unread bytes (R21). -/
def State.occ (s : State) : Nat := fwd s.cap s.rc s.wc

/-- `available_to_write`: `(N - 1) - occ` (R72, conflict C1). -/
def State.availWrite (s : State) : Nat := (s.cap - 1) - s.occ

/-- `S[i]` (R16): the byte `BUF_WRITE` last wrote there, or the unspecified reset contents (R34). -/
def State.storeByte (s : State) (i : Nat) : Byte :=
  (s.store.read i).getD (Config.storageAtReset s.epoch i)

/-- `S[start], S[start+1], …`, `count` bytes going forward with wraparound (R42). -/
def State.ringBytes (s : State) (start count : Nat) : List Byte :=
  (List.range count).map fun i => s.storeByte ((start + i) % s.cap)

/-- `S[start], S[start+1], …`, `count` bytes in physical order (R113). -/
def State.runBytes (s : State) (start count : Nat) : List Byte :=
  (List.range count).map fun i => s.storeByte (start + i)

/-- The unread region `U` (R22). -/
def State.unread (s : State) : List Byte := s.ringBytes s.rc s.occ

/-- `S[(at + i) mod N] <- bytes[i]` for increasing `i`; a later write to an offset wins (R42, R73). -/
def writeRing (n : Nat) : Memory → Nat → List Byte → Memory
  | m, _, [] => m
  | m, pos, b :: bs => writeRing n (m.write (pos % n) b) (pos + 1) bs

/-- The new `RC` of a `BUF_WRITE`: on overflow the buffer is forced full (R73). -/
def cursorAfterWrite (n rc newWc len avail : Nat) : Nat :=
  if avail < len then (newWc + 1) % n else rc

/-- `RC <- (RC + adv) mod N` (R74, R117, R118). -/
def State.advanceRead (s : State) (adv : Nat) : State :=
  { s with rc := (s.rc + adv) % s.cap }

/-! ## The decoder's registers -/

/-- What one decoder step leaves: the registers, the host's memory and the result. -/
structure Stepped where
  dec : Decoder
  mem : Memory
  result : StepResult
  deriving DecidableEq, Repr

/-- `Complete()` (R94). -/
def complete (d : Decoder) (m : Memory) : Stepped :=
  { dec := { d with ds := .idle, dr := 0, di := 0 }, mem := m, result := .packetComplete d.di }

/-- `Fail(kind)` (R95): the error result of every row; nothing already written is undone. -/
def fail (kind : ErrorKind) (d : Decoder) (m : Memory) : Stepped :=
  { dec := { d with ds := .idle, dr := 0, di := 0 }, mem := m, result := .error kind }

/-- `Emit(b)` (R93), into the `DST` region that stands at `base`. -/
def emit (base : Nat) (b : Byte) (d : Decoder) (m : Memory) : Stepped :=
  if d.di = d.dl then fail .destOverflow d m
  else { dec := { d with di := d.di + 1 }, mem := m.write (base + d.di) b, result := .emitByte b }

/-- A step that only moves the decoder: `DS`, `DR`, and `NoData`. -/
def moveTo (ds : DecState) (dr : Nat) (d : Decoder) (m : Memory) : Stepped :=
  { dec := { d with ds := ds, dr := dr }, mem := m, result := .noData }

/-- A code byte `0xFF`: a 254-byte run (R65). -/
def openFull (d : Decoder) (m : Memory) : Stepped := moveTo .grabChain Config.maxRun d m

/-- A code byte `b` in `0x01`..`0xFE`: a run of `b - 1` bytes (R65). -/
def openShort (b : Byte) (d : Decoder) (m : Memory) : Stepped := moveTo .grab (b.toNat - 1) d m

/-- A payload byte: emit it, and if that succeeds count it, staying in `ds` (R87, R92). -/
def payload (base : Nat) (ds : DecState) (b : Byte) (d : Decoder) (m : Memory) : Stepped :=
  match emit base b d m with
  | ⟨d', m', .emitByte c⟩ => ⟨{ d' with ds := ds, dr := d'.dr - 1 }, m', .emitByte c⟩
  | r => r

/-- A fresh session over a slice of capacity `dl` (R97, R98, R115). -/
def freshDecoder (dl : Nat) : Decoder := { ds := .idle, dr := 0, di := 0, dl := dl }

/-! ## Reset (R141) -/

/-- Asserting the reset input: every register to its reset value, the storage unspecified again; host memory is
not written. -/
def State.assertReset (s : State) : State :=
  { s with
    store := []
    wc := 0
    rc := 0
    dec := freshDecoder 0
    line := .asserted
    src := { base := 0, bytes := [] }
    dst := { base := 0, cap := 0 }
    out := .nothing
    epoch := s.epoch + 1 }

/-- Releasing the reset input: commands may start, if it was asserted (R142; log entry 11). -/
def State.releaseReset (s : State) : State :=
  { s with
    line := match s.line with
      | .beforeFirst => .beforeFirst
      | .asserted => .released
      | .released => .released
    out := .nothing }

end Sys2Proof.Machine
end

