-- ==== Sys2Proof/Machine/Operands.lean ====
section
/-! DEFINITION. The operand forms: a length in `ARG` (R59), the `SRC` bytes and the `DST` region of the command at the
port (R61), and what the host owes with them (R46, R61). A breach is refused before any effect (log entry 15). -/

namespace Sys2Proof.Machine

/-- `SRC[0..len-1]`, which must be exactly `len` bytes (R61, D22; log entry 9). -/
def withSrc (len : Nat) (s : State) (body : List Byte → Result) : Result :=
  if s.src.bytes.length = len then body s.src.bytes else .refused .srcLength

/-- `DST` of at least `need` bytes (R61): the body gets where it stands. -/
def withDst (need : Nat) (s : State) (body : Nat → Result) : Result :=
  if need ≤ s.dst.cap then body s.dst.base else .refused .dstTooShort

/-- `DST` overlaps no region the command reads (R46): the `SRC` at the port. -/
def withDisjoint (s : State) (body : Result) : Result :=
  if max s.src.base s.dst.base < min (s.src.base + s.src.bytes.length) (s.dst.base + s.dst.cap)
  then .refused .dstOverlapsSrc
  else body

end Sys2Proof.Machine
end

