-- ==== Sys2Proof/Machine/Buffer.lean ====
section
/-! DEFINITION. The commands of the CircularByteBuffer (40_buffer_ops.md). None reads or writes the decoder. -/

namespace Sys2Proof.Machine

/-- `BUF_AVAIL_READ` (R71). -/
def execBufAvailRead (s : State) : Result :=
  .next (s.respond .ok s.occ 0)

/-- `BUF_AVAIL_WRITE` (R72). -/
def execBufAvailWrite (s : State) : Result :=
  .next (s.respond .ok s.availWrite 0)

/-- `BUF_WRITE` (R73): `aw` is the free space before the write. -/
def execBufWrite (len : Arg) (s : State) : Result :=
  withSrc len.toNat s fun bytes =>
    let newWc := (s.wc + len.toNat) % s.cap
    .next ({ s with
      store := writeRing s.cap s.store s.wc bytes
      wc := newWc
      rc := cursorAfterWrite s.cap s.rc newWc len.toNat s.availWrite }.respond .ok len.toNat 0)

/-- `BUF_READ` (R74). -/
def execBufRead (maxLen : Arg) (s : State) : Result :=
  withDst maxLen.toNat s fun base =>
    let count := min s.occ maxLen.toNat
    .next (({ s with hostMem := s.hostMem.writeBytes base (s.ringBytes s.rc count) }.advanceRead count).respond
      .ok count 0)

end Sys2Proof.Machine
end

