-- ==== Sys2Proof/Machine/Cobs.lean ====
section
/-! DEFINITION. The thirteen rows of the COBS transition table (R80 to R92), the transition function that selects one
of them (R96), and each row run on its own. -/

namespace Sys2Proof.Machine

/-! ## The rows, on any decoder registers -/

/-- T1 (R80). -/
def rowT1 (d : Decoder) (m : Memory) : Stepped := moveTo .idle 0 d m

/-- T2 (R81). -/
def rowT2 (d : Decoder) (m : Memory) : Stepped := openFull d m

/-- T3 (R82). -/
def rowT3 (b : Byte) (d : Decoder) (m : Memory) : Stepped := openShort b d m

/-- T4 (R83). -/
def rowT4 (d : Decoder) (m : Memory) : Stepped := complete d m

/-- T5 (R84). -/
def rowT5 (d : Decoder) (m : Memory) : Stepped := openFull d m

/-- T6 (R85). -/
def rowT6 (b : Byte) (d : Decoder) (m : Memory) : Stepped := openShort b d m

/-- T7 (R86). -/
def rowT7 (d : Decoder) (m : Memory) : Stepped := fail .prematureZero d m

/-- T8 (R87). -/
def rowT8 (base : Nat) (b : Byte) (d : Decoder) (m : Memory) : Stepped := payload base .grab b d m

/-- T9 (R88). -/
def rowT9 (d : Decoder) (m : Memory) : Stepped := complete d m

/-- T10 (R89). -/
def rowT10 (d : Decoder) (m : Memory) : Stepped := openFull d m

/-- T11 (R90). -/
def rowT11 (b : Byte) (d : Decoder) (m : Memory) : Stepped := openShort b d m

/-- T12 (R91). -/
def rowT12 (d : Decoder) (m : Memory) : Stepped := fail .prematureZero d m

/-- T13 (R92). -/
def rowT13 (base : Nat) (b : Byte) (d : Decoder) (m : Memory) : Stepped := payload base .grabChain b d m

/-- `step(b)` (R96): the row that the state, `DR = 0` and the byte select, in the order of R64. -/
def decStep (base : Nat) (b : Byte) (d : Decoder) (m : Memory) : Stepped :=
  match d.ds with
  | .idle =>
    if b = 0x00 then rowT1 d m else if b = 0xFF then rowT2 d m else rowT3 b d m
  | .grab =>
    if d.dr = 0 then
      if b = 0x00 then rowT4 d m else if b = 0xFF then rowT5 d m else rowT6 b d m
    else if b = 0x00 then rowT7 d m else rowT8 base b d m
  | .grabChain =>
    if d.dr = 0 then
      if b = 0x00 then rowT9 d m else if b = 0xFF then rowT10 d m else rowT11 b d m
    else if b = 0x00 then rowT12 d m else rowT13 base b d m

/-! ## A row as an instruction of its own

It acts on `(DS, DR, DI, DL)` and on the `DST` region at the port, and drives its result. A row is the transition
function restricted to its key (41_cobs_decoder.md, template of a row rule): elsewhere it is refused (log entry 7). -/

/-- Leave what a step leaves, and drive its result. -/
def State.afterRow (s : State) (r : Stepped) : State :=
  { s with dec := r.dec, hostMem := r.mem, out := .result r.result }

/-- Run a row where its key selects it. -/
def runRow (selected : Bool) (r : Stepped) (s : State) : Result :=
  if selected then .next (s.afterRow r) else .refused .rowNotSelected

/-- T1 run on its own (R80): `Idle`, `0x00`. -/
def execCobsT1 (s : State) : Result :=
  runRow (s.dec.ds = .idle) (rowT1 s.dec s.hostMem) s

/-- T2 run on its own (R81): `Idle`, `0xFF`. -/
def execCobsT2 (s : State) : Result :=
  runRow (s.dec.ds = .idle) (rowT2 s.dec s.hostMem) s

/-- T3 run on its own (R82): `Idle`, any other byte. -/
def execCobsT3 (b : Byte) (s : State) : Result :=
  runRow (s.dec.ds = .idle ∧ otherAtHeader b) (rowT3 b s.dec s.hostMem) s

/-- T4 run on its own (R83): `Grab`, `DR = 0`, `0x00`. -/
def execCobsT4 (s : State) : Result :=
  runRow (s.dec.ds = .grab ∧ s.dec.dr = 0) (rowT4 s.dec s.hostMem) s

/-- T5 run on its own (R84): `Grab`, `DR = 0`, `0xFF`. -/
def execCobsT5 (s : State) : Result :=
  runRow (s.dec.ds = .grab ∧ s.dec.dr = 0) (rowT5 s.dec s.hostMem) s

/-- T6 run on its own (R85): `Grab`, `DR = 0`, any other byte. -/
def execCobsT6 (b : Byte) (s : State) : Result :=
  runRow (s.dec.ds = .grab ∧ s.dec.dr = 0 ∧ otherAtHeader b) (rowT6 b s.dec s.hostMem) s

/-- T7 run on its own (R86): `Grab`, `DR > 0`, `0x00`. -/
def execCobsT7 (s : State) : Result :=
  runRow (s.dec.ds = .grab ∧ 0 < s.dec.dr) (rowT7 s.dec s.hostMem) s

/-- T8 run on its own (R87): `Grab`, `DR > 0`, any other byte. -/
def execCobsT8 (b : Byte) (s : State) : Result :=
  withDst s.dec.dl s fun base =>
    runRow (s.dec.ds = .grab ∧ 0 < s.dec.dr ∧ otherAtPayload b) (rowT8 base b s.dec s.hostMem) s

/-- T9 run on its own (R88): `GrabChain`, `DR = 0`, `0x00`. -/
def execCobsT9 (s : State) : Result :=
  runRow (s.dec.ds = .grabChain ∧ s.dec.dr = 0) (rowT9 s.dec s.hostMem) s

/-- T10 run on its own (R89): `GrabChain`, `DR = 0`, `0xFF`. -/
def execCobsT10 (s : State) : Result :=
  runRow (s.dec.ds = .grabChain ∧ s.dec.dr = 0) (rowT10 s.dec s.hostMem) s

/-- T11 run on its own (R90): `GrabChain`, `DR = 0`, any other byte. -/
def execCobsT11 (b : Byte) (s : State) : Result :=
  runRow (s.dec.ds = .grabChain ∧ s.dec.dr = 0 ∧ otherAtHeader b) (rowT11 b s.dec s.hostMem) s

/-- T12 run on its own (R91): `GrabChain`, `DR > 0`, `0x00`. -/
def execCobsT12 (s : State) : Result :=
  runRow (s.dec.ds = .grabChain ∧ 0 < s.dec.dr) (rowT12 s.dec s.hostMem) s

/-- T13 run on its own (R92): `GrabChain`, `DR > 0`, any other byte. -/
def execCobsT13 (b : Byte) (s : State) : Result :=
  withDst s.dec.dl s fun base =>
    runRow (s.dec.ds = .grabChain ∧ 0 < s.dec.dr ∧ otherAtPayload b) (rowT13 base b s.dec s.hostMem) s

end Sys2Proof.Machine
end

