-- ==== Sys2Proof/Machine/Decoder.lean ====
section
/-! DEFINITION. Feeding a session a sequence of bytes, and the commands of the CobsDecoder (41_cobs_decoder.md,
section 3). None reads or writes the buffer. -/

namespace Sys2Proof.Machine

/-- How feeding a sequence of bytes stopped. -/
inductive FeedStop
  /-- Every byte was fed, with no completion and no error. -/
  | exhausted
  | complete (length : Nat)
  | error (kind : ErrorKind)
  deriving DecidableEq, Repr

/-- What feeding leaves, and how many bytes were consumed: a completing byte counts, an offending byte does not (R100). -/
structure Fed where
  dec : Decoder
  mem : Memory
  stop : FeedStop
  consumed : Nat
  deriving DecidableEq, Repr

/-- Feed bytes in order to a session, stopping at the first `PacketComplete` or `Error` (R100, R116);
`done` bytes were fed before. -/
def feed (base : Nat) : Decoder → Memory → Nat → List Byte → Fed
  | d, m, done, [] => { dec := d, mem := m, stop := .exhausted, consumed := done }
  | d, m, done, b :: bs =>
    match decStep base b d m with
    | ⟨d', m', .noData⟩ => feed base d' m' (done + 1) bs
    | ⟨d', m', .emitByte _⟩ => feed base d' m' (done + 1) bs
    | ⟨d', m', .packetComplete l⟩ => { dec := d', mem := m', stop := .complete l, consumed := done + 1 }
    | ⟨d', m', .error k⟩ => { dec := d', mem := m', stop := .error k, consumed := done }

/-- Leave what a step leaves in the decoder's registers and in `DST`. -/
def State.withStep (s : State) (dec : Decoder) (mem : Memory) : State :=
  { s with dec := dec, hostMem := mem }

/-- `DEC_FEED`'s response to a step's result (R99). -/
def State.respondStep (s : State) : StepResult → State
  | .noData => s.respond .noData 0 0
  | .emitByte b => s.respond .emit b.toNat 0
  | .packetComplete l => s.respond .complete l 0
  | .error k => s.respond .error k.number 0

/-- `DEC_PUSH`'s response (R100). -/
def State.respondPush (s : State) (consumed : Nat) : FeedStop → State
  | .exhausted => s.respond .pushIncomplete 0 consumed
  | .complete l => s.respond .pushComplete l consumed
  | .error k => s.respond .pushError k.number consumed

/-- `DEC_RESET` (R97). -/
def execDecReset (destLen : Arg) (s : State) : Result :=
  .next ({ s with dec := freshDecoder destLen.toNat }.respond .ok 0 0)

/-- `DEC_FEED` (R99). -/
def execDecFeed (b : Byte) (s : State) : Result :=
  withDst s.dec.dl s fun base =>
    let r := decStep base b s.dec s.hostMem
    .next ((s.withStep r.dec r.mem).respondStep r.result)

/-- `DEC_PUSH` (R100). -/
def execDecPush (len : Arg) (s : State) : Result :=
  withSrc len.toNat s fun bytes =>
    withDst s.dec.dl s fun base =>
      withDisjoint s <|
        let f := feed base s.dec s.hostMem 0 bytes
        .next ((s.withStep f.dec f.mem).respondPush f.consumed f.stop)

/-- `DEC_STATUS` (R101). -/
def execDecStatus (s : State) : Result :=
  .next (s.respond .status (statusWord s.dec) s.dec.di)

end Sys2Proof.Machine
end

