-- ==== Sys2Proof/Machine/Reader.lean ====
section
/-! DEFINITION. The FramedRingReader: `READ_PACKET` (42_framed_reader.md). -/

namespace Sys2Proof.Machine

/-- The contiguous runs of the unread region of a non-empty buffer (R113): one if it does not wrap (R114), else the
run to the physical end and the run from the physical start, which is empty when `WC = 0`. -/
def State.runs (s : State) : List (List Byte) :=
  if s.rc < s.wc then [s.runBytes s.rc (s.wc - s.rc)]
  else [s.runBytes s.rc (s.cap - s.rc), s.runBytes 0 s.wc]

/-- Feed further runs to the same session while it is incomplete (R119). -/
def feedRuns (base : Nat) : Fed → List (List Byte) → Fed
  | f, [] => f
  | f, run :: more =>
    match f.stop with
    | .exhausted => feedRuns base (feed base f.dec f.mem f.consumed run) more
    | .complete _ => f
    | .error _ => f

/-- A fresh session, before its first byte (R115). -/
def freshFed (destLen : Nat) (m : Memory) : Fed :=
  { dec := freshDecoder destLen, mem := m, stop := .exhausted, consumed := 0 }

/-- The outcome of the transient session: the cursor past the packet (R117), at the offending byte (R118), or where it
was (R120). Only `DST` keeps what the session wrote. -/
def State.finishPacket (s : State) (f : Fed) : State :=
  match f.stop with
  | .complete l => ({ s with hostMem := f.mem }.advanceRead f.consumed).respond .rpOk l f.consumed
  | .error k => ({ s with hostMem := f.mem }.advanceRead f.consumed).respond .rpCorrupt k.number f.consumed
  | .exhausted => { s with hostMem := f.mem }.respond .rpIncomplete 0 0

/-- `READ_PACKET` (R111): the empty check comes first (R112). -/
def execReadPacket (destLen : Arg) (s : State) : Result :=
  withDst destLen.toNat s fun base =>
    if s.rc = s.wc then .next (s.respond .rpNoBytes 0 0)
    else .next (s.finishPacket (feedRuns base (freshFed destLen.toNat s.hostMem) s.runs))

end Sys2Proof.Machine
end

