-- ==== Sys2Proof/Machine/Dispatch.lean ====
section
/-! DEFINITION. One arm per instruction, each one call of its meaning. -/

namespace Sys2Proof.Machine

def exec (i : Instr) (s : State) : Host.Outcome State Fault Refusal :=
  match i with
  | .bufAvailRead => Sys2Proof.Machine.execBufAvailRead s
  | .bufAvailWrite => Sys2Proof.Machine.execBufAvailWrite s
  | .bufRead maxLen => Sys2Proof.Machine.execBufRead maxLen s
  | .bufWrite len => Sys2Proof.Machine.execBufWrite len s
  | .decReset destLen => Sys2Proof.Machine.execDecReset destLen s
  | .decFeed b => Sys2Proof.Machine.execDecFeed b s
  | .decPush len => Sys2Proof.Machine.execDecPush len s
  | .readPacket destLen => Sys2Proof.Machine.execReadPacket destLen s
  | .decStatus => Sys2Proof.Machine.execDecStatus s
  | .cobsT1 => Sys2Proof.Machine.execCobsT1 s
  | .cobsT2 => Sys2Proof.Machine.execCobsT2 s
  | .cobsT3 b => Sys2Proof.Machine.execCobsT3 b s
  | .cobsT4 => Sys2Proof.Machine.execCobsT4 s
  | .cobsT5 => Sys2Proof.Machine.execCobsT5 s
  | .cobsT6 b => Sys2Proof.Machine.execCobsT6 b s
  | .cobsT7 => Sys2Proof.Machine.execCobsT7 s
  | .cobsT8 b => Sys2Proof.Machine.execCobsT8 b s
  | .cobsT9 => Sys2Proof.Machine.execCobsT9 s
  | .cobsT10 => Sys2Proof.Machine.execCobsT10 s
  | .cobsT11 b => Sys2Proof.Machine.execCobsT11 b s
  | .cobsT12 => Sys2Proof.Machine.execCobsT12 s
  | .cobsT13 b => Sys2Proof.Machine.execCobsT13 b s

end Sys2Proof.Machine
end

