-- ==== Sys2Proof/Machine/Port.lean ====
section
/-! DEFINITION. The block's boundary: taking the host's next event, what it decodes to, and placing an instruction as
the next event. -/

namespace Sys2Proof.Machine

/-- What the port has for the block to do. -/
inductive Fetched
  /-- No instruction: the block is in this state next. -/
  | quiet (s : State)
  /-- The instruction to run, and the state to run it in. -/
  | run (i : Instr) (s : State)
  | refuse (r : Refusal)
  deriving DecidableEq, Repr

/-- The command or byte at the port is taken from the host, with its regions; the port drives nothing yet. -/
def State.accept (s : State) (rest : List HostEvent) (src : SrcRegion) (dst : DstRegion) : State :=
  { s with pending := rest, src := src, dst := dst, out := .nothing }

/-- A byte for the decoder leaf comes with no `SRC` (log entry 7). -/
def noSrc : SrcRegion := { base := 0, bytes := [] }

/-- The key `K` of a byte in a decoder state (R64). -/
def Decoder.key (d : Decoder) (b : Byte) : Key := keyOf d.ds.code (0 < d.dr) b

/-- Run what was decoded, or refuse it by name (R54). -/
def fetchDecoded (s : State) : Except DecodeError Instr → Fetched
  | .ok i => .run i s
  | .error e => .refuse (.reserved e)

/-- Nothing happens at the port before the first reset or while reset is asserted (R142). -/
def whenReleased (line : ResetLine) (f : Fetched) : Fetched :=
  match line with
  | .beforeFirst => .refuse .beforeFirstReset
  | .asserted => .refuse .resetAsserted
  | .released => f

/-- A command issued while another is executing has no transition (R144). -/
def whenSerialized (overlapping : Bool) (f : Fetched) : Fetched :=
  if overlapping then .refuse .overlappingCommand else f

/-- Take the host's next event, in the order it issues them (R47). With none the block idles (R139; log entry 13). -/
def fetch (s : State) : Fetched :=
  match s.pending with
  | [] => .quiet { s with out := .nothing }
  | .assertReset :: rest => .quiet { s with pending := rest }.assertReset
  | .releaseReset :: rest => .quiet { s with pending := rest }.releaseReset
  | .command r :: rest =>
    whenReleased s.line <| whenSerialized r.overlapping <|
      fetchDecoded (s.accept rest r.src r.dst) (decode r.word)
  | .cobsByte b dst :: rest =>
    whenReleased s.line <|
      fetchDecoded (s.accept rest noSrc dst) (decodeKey (s.dec.key b))

/-! ## Placing an instruction as the host's next event (log entry 14) -/

/-- How many `SRC` bytes a command word needs (R61). -/
def srcNeeded (w : CmdWord) : Nat :=
  if opcodeOf w = 0x04 ∨ opcodeOf w = 0x07 then (argOf w).toNat else 0

/-- A `DST` region long enough for any command: its `ARG`, or the session's `DL` (R61). -/
def dstNeeded (w : CmdWord) (s : State) : Nat := max (argOf w).toNat s.dec.dl

/-- The host's next event is the command word `w`, with regions as R46 and R61 ask: `DST` first, `SRC` after it. -/
def State.placeCommand (s : State) (w : CmdWord) : State :=
  { s with
    line := .released
    pending := .command
      { word := w
        src := { base := dstNeeded w s, bytes := List.replicate (srcNeeded w) 0 }
        dst := { base := 0, cap := dstNeeded w s }
        overlapping := false } :: s.pending }

/-- The decoder state that a two-bit code names (R58); code 3 names none. -/
def stateOfCode (c : BitVec 2) (now : DecState) : DecState :=
  match c.toNat with
  | 0 => .idle
  | 1 => .grab
  | 2 => .grabChain
  | _ => now

/-- The host's next event is the byte of the key `k`, in a decoder state of that key: `DS` and whether `DR > 0`. -/
def State.placeKey (s : State) (k : Key) : State :=
  { s with
    line := .released
    dec := { s.dec with
      ds := stateOfCode (keyState k) s.dec.ds
      dr := if keyPositive k then max 1 s.dec.dr else 0 }
    pending := .cobsByte (keyByte k) { base := 0, cap := s.dec.dl } :: s.pending }

/-- Place an encoding. -/
def State.place (s : State) : Encoded → State
  | .word w => s.placeCommand w
  | .key k => s.placeKey k

end Sys2Proof.Machine
end

