-- ==== Sys2Proof/Machine/Step.lean ====
section
/-! DEFINITION. One step: the host's next event, and the instruction it decodes to. -/

namespace Sys2Proof.Machine

/-- One step of the block: a command is one atomic transition (R44). -/
def step (s : State) : Host.Outcome State Fault Refusal :=
  match fetch s with
  | .quiet t => .next t
  | .run i t => exec i t
  | .refuse r => .refused r

/-- `s` with the instruction of these bits as the host's next event (log entry 14). -/
def State.withFetchWord (s : State) (nbits w : Nat) : State :=
  s.place (tableWord nbits w)

end Sys2Proof.Machine
end

