-- ==== Sys2Proof/Safety.lean ====
section
/-! DEFINITION. What a good state of the block is, and the words the claims are written in. -/

namespace Sys2Proof.Machine

/-! ## The invariant -/

/-- The decoder's registers as R27 asks of every reachable state, with `DL` in its 24-bit range (R26). -/
structure Decoder.Inv (d : Decoder) : Prop where
  idleHasNoRun : d.ds = .idle → d.dr = 0
  runBound : d.dr ≤ 254
  indexBound : d.di ≤ d.dl
  lengthBound : d.dl < 2 ^ 24

/-- What every reachable state of the block satisfies. -/
structure State.Inv (s : State) : Prop where
  /-- `2 <= N` (R8). -/
  capLow : 2 ≤ s.cap
  /-- `N <= 2^24` (R8). -/
  capHigh : s.cap ≤ 2 ^ 24
  /-- `WC` in `[0, N)` (R19). -/
  wcBound : s.wc < s.cap
  /-- `RC` in `[0, N)` (R19). -/
  rcBound : s.rc < s.cap
  /-- R27. -/
  decoder : s.dec.Inv
  /-- The storage is in canonical form. -/
  storeWf : s.store.wf
  /-- The storage has offsets `0..N-1` only (R18). -/
  storeBound : ∀ c ∈ s.store, c.1 < s.cap
  /-- Every unread byte is one that a `BUF_WRITE` since reset copied from `SRC` (R78). -/
  unreadWritten : ∀ k, k < s.occ → (s.store.read ((s.rc + k) % s.cap)).isSome
  /-- The host memory is in canonical form. -/
  hostWf : s.hostMem.wf

/-! ## The opcode table -/

/-- The two formats of the opcode table's rows. -/
inductive TableFormat
  | command
  | cobsByte
  deriving DecidableEq, Repr

/-- A row of spec/opcode_table.json: the bits under `mask` are `bits`. -/
structure TableRow where
  mnemonic : String
  format : TableFormat
  bits : Nat
  mask : Nat
  deriving DecidableEq, Repr

/-- The rows of the command words. -/
def commandRows : List TableRow :=
  [⟨"BUF_AVAIL_READ", .command, 0x00000001, 0xFFFFFFFF⟩,
   ⟨"BUF_AVAIL_WRITE", .command, 0x00000002, 0xFFFFFFFF⟩,
   ⟨"BUF_READ", .command, 0x00000003, 0x000000FF⟩,
   ⟨"BUF_WRITE", .command, 0x00000004, 0x000000FF⟩,
   ⟨"DEC_RESET", .command, 0x00000005, 0x000000FF⟩,
   ⟨"DEC_FEED", .command, 0x00000006, 0xFFFF00FF⟩,
   ⟨"DEC_PUSH", .command, 0x00000007, 0x000000FF⟩,
   ⟨"READ_PACKET", .command, 0x00000008, 0x000000FF⟩,
   ⟨"DEC_STATUS", .command, 0x00000009, 0xFFFFFFFF⟩]

/-- The rows of the COBS keys, in their priority order: the first that matches applies. -/
def cobsRows : List TableRow :=
  [⟨"COBS_T1", .cobsByte, 0x000, 0x6FF⟩,
   ⟨"COBS_T2", .cobsByte, 0x0FF, 0x6FF⟩,
   ⟨"COBS_T3", .cobsByte, 0x000, 0x600⟩,
   ⟨"COBS_T4", .cobsByte, 0x200, 0x7FF⟩,
   ⟨"COBS_T5", .cobsByte, 0x2FF, 0x7FF⟩,
   ⟨"COBS_T6", .cobsByte, 0x200, 0x700⟩,
   ⟨"COBS_T7", .cobsByte, 0x300, 0x7FF⟩,
   ⟨"COBS_T8", .cobsByte, 0x300, 0x700⟩,
   ⟨"COBS_T9", .cobsByte, 0x400, 0x7FF⟩,
   ⟨"COBS_T10", .cobsByte, 0x4FF, 0x7FF⟩,
   ⟨"COBS_T11", .cobsByte, 0x400, 0x700⟩,
   ⟨"COBS_T12", .cobsByte, 0x500, 0x7FF⟩,
   ⟨"COBS_T13", .cobsByte, 0x500, 0x700⟩]

/-- spec/opcode_table.json. -/
def opcodeTable : List TableRow := commandRows ++ cobsRows

/-- The row matches the encoding. -/
def TableRow.covers (r : TableRow) : Encoded → Bool
  | .word w => r.format = .command && w.toNat &&& r.mask = r.bits
  | .key k => r.format = .cobsByte && k.toNat &&& r.mask = r.bits

/-- The mnemonic the opcode table gives the instruction. -/
def mnemonicOf : Instr → String
  | .bufAvailRead => "BUF_AVAIL_READ"
  | .bufAvailWrite => "BUF_AVAIL_WRITE"
  | .bufRead _ => "BUF_READ"
  | .bufWrite _ => "BUF_WRITE"
  | .decReset _ => "DEC_RESET"
  | .decFeed _ => "DEC_FEED"
  | .decPush _ => "DEC_PUSH"
  | .readPacket _ => "READ_PACKET"
  | .decStatus => "DEC_STATUS"
  | .cobsT1 => "COBS_T1"
  | .cobsT2 => "COBS_T2"
  | .cobsT3 _ => "COBS_T3"
  | .cobsT4 => "COBS_T4"
  | .cobsT5 => "COBS_T5"
  | .cobsT6 _ => "COBS_T6"
  | .cobsT7 => "COBS_T7"
  | .cobsT8 _ => "COBS_T8"
  | .cobsT9 => "COBS_T9"
  | .cobsT10 => "COBS_T10"
  | .cobsT11 _ => "COBS_T11"
  | .cobsT12 => "COBS_T12"
  | .cobsT13 _ => "COBS_T13"

/-! ## The words of the claims -/

/-- The port drives a response of this code whose two values, read as numbers, are these (R55). -/
def Reports (o : PortOut) (code : RespCode) (v0 v1 : Nat) : Prop :=
  ∃ r : Response, o = .response r ∧ r.code = code ∧ r.v0.toNat = v0 ∧ r.v1.toNat = v1

/-- No address stands in both the `SRC` and the `DST` of the command at the port (R46). -/
def State.RegionsApart (s : State) : Prop :=
  ∀ a, ¬((s.src.base ≤ a ∧ a < s.src.base + s.src.bytes.length) ∧ (s.dst.base ≤ a ∧ a < s.dst.base + s.dst.cap))

/-- Outside `count` bytes from `base` on, the memories read alike. -/
def Memory.sameOutside (m n : Memory) (base count : Nat) : Prop :=
  ∀ a, a < base ∨ base + count ≤ a → n.read a = m.read a

/-- A word that spells no command (R54). -/
def ReservedWord (w : CmdWord) : Prop :=
  w.toNat % 256 = 0 ∨ 0x0A ≤ w.toNat % 256 ∨
    ((w.toNat % 256 = 0x01 ∨ w.toNat % 256 = 0x02 ∨ w.toNat % 256 = 0x09) ∧ w.toNat / 256 ≠ 0) ∨
    (w.toNat % 256 = 0x06 ∧ 256 ≤ w.toNat / 256)

/-- The number of a length that a command carries. -/
abbrev argOfLength (n : Nat) : Arg := BitVec.ofNat 24 n

/-- `last_k(l)` (R15). -/
def lastK {α : Type} (k : Nat) (l : List α) : List α := l.drop (l.length - k)

/-- The opcode table's rows whose byte class holds `b`, one for each kind of position (R64). -/
def rowsOnByte (b : Byte) : List Instr :=
  if b = 0x00 then [.cobsT1, .cobsT4, .cobsT7, .cobsT9, .cobsT12]
  else if b = 0xFF then [.cobsT2, .cobsT5, .cobsT8 b, .cobsT10, .cobsT13 b]
  else [.cobsT3 b, .cobsT6 b, .cobsT8 b, .cobsT11 b, .cobsT13 b]

/-- `q` full chunks of 254 bytes, then `tail` of what is left (R105). -/
def cobsChunks (tail : List Byte → List Byte) : Nat → List Byte → List Byte
  | 0, p => tail p
  | q + 1, p => 0xFF :: p.take 254 ++ cobsChunks tail q (p.drop 254)

/-- `Enc(P)` (R105): the full chunks, a final chunk of what is left, and the delimiter. -/
def cobsEncode (p : List Byte) : List Byte :=
  cobsChunks (fun r => BitVec.ofNat 8 (r.length + 1) :: r ++ [0x00]) (p.length / 254) p

/-- The encoding that leaves out an empty final chunk (R105): the full chunks and the delimiter. -/
def cobsEncodeFull (p : List Byte) : List Byte :=
  cobsChunks (fun _ => [0x00]) (p.length / 254) p

/-- The `len` bytes that stand in a memory from `base` on are `bytes`. -/
def Memory.holds (m : Memory) (base : Nat) (bytes : List Byte) : Prop :=
  ∀ i (h : i < bytes.length), m.read (base + i) = some bytes[i]

/-- A run of `BUF_WRITE` without overflow and of `BUF_READ`, the host moving its regions and its plans in between:
`written` are the `SRC` bytes of the writes and `delivered` the `DST` bytes of the reads, each in order (R79). -/
inductive BufRun : State → List Byte → List Byte → State → Prop
  | done (s : State) : BufRun s [] [] s
  | host {s u : State} {w d : List Byte} (src : SrcRegion) (dst : DstRegion) (pending : List HostEvent) :
      BufRun { s with src := src, dst := dst, pending := pending } w d u → BufRun s w d u
  | write {s t u : State} {w d : List Byte} (len : Arg) :
      len.toNat ≤ s.availWrite → exec (.bufWrite len) s = .next t → BufRun t w d u →
      BufRun s (s.src.bytes ++ w) d u
  | read {s t u : State} {w d : List Byte} (maxLen : Arg) (count : Arg) (bytes : List Byte) :
      exec (.bufRead maxLen) s = .next t → t.out = .response ⟨.ok, count, 0⟩ →
      bytes.length = count.toNat → t.hostMem.holds s.dst.base bytes → BufRun t w d u →
      BufRun s w (bytes ++ d) u

end Sys2Proof.Machine
end

