-- ==== Sys2Proof/Certificates/Slice0/Obligations.lean ====
section
/-! DEFINITION. The statements for the provers. OBLIGATIONS.json lists them with the rules they formalise. -/

open Sys2Proof Sys2Proof.Machine

/-! ## The circular buffer -/

/-- R71: the count is 0 when empty, otherwise the forward distance from `RC` to `WC`; nothing else changes. Its word is
`0x00000001`. -/
def Obligations.BufAvailReadReportsDistance : Prop :=
  decode 0x00000001 = .ok .bufAvailRead ∧ ∀ s : State, s.Inv → ∃ o : PortOut,
    Reports o .ok (if s.rc = s.wc then 0 else if s.rc < s.wc then s.wc - s.rc else s.cap - s.rc + s.wc) 0 ∧
    exec .bufAvailRead s = .next { s with out := o }

/-- R72: the count is `N - 1` when empty, otherwise one less than the forward distance from `WC` to `RC`
(conflict C1); nothing else changes. Its word is `0x00000002`. -/
def Obligations.BufAvailWriteReportsFreeSpace : Prop :=
  decode 0x00000002 = .ok .bufAvailWrite ∧ ∀ s : State, s.Inv → ∃ o : PortOut,
    Reports o .ok
      (if s.rc = s.wc then s.cap - 1 else if s.wc < s.rc then s.rc - s.wc - 1 else s.cap - s.wc + s.rc - 1) 0 ∧
    exec .bufAvailWrite s = .next { s with out := o }

/-- R75: what the two queries report adds up to `N - 1`. -/
def Obligations.CapacityInvariant : Prop :=
  ∀ s : State, s.Inv → ∃ (o p : PortOut) (a b : Nat),
    exec .bufAvailRead s = .next { s with out := o } ∧ Reports o .ok a 0 ∧
    exec .bufAvailWrite s = .next { s with out := p } ∧ Reports p .ok b 0 ∧ a + b = s.cap - 1

/-- R73: `BUF_WRITE` copies `SRC` into the ring, the later write to an offset winning, advances `WC` by `len`, on
overflow sets `RC` to `WC + 1`, and reports `len`; nothing else changes. Its word is `(len << 8) | 0x04`. -/
def Obligations.BufWriteCopiesIntoRing : Prop :=
  ∀ (s : State) (len : Arg), s.Inv → s.src.bytes.length = len.toNat →
    decode (len.setWidth 32 <<< 8 ||| 0x04) = .ok (.bufWrite len) ∧ ∃ (store : Memory) (o : PortOut), Reports o .ok len.toNat 0 ∧
      exec (.bufWrite len) s = .next { s with
        store := store
        wc := (s.wc + len.toNat) % s.cap
        rc := if s.cap - 1 - s.unread.length < len.toNat then ((s.wc + len.toNat) % s.cap + 1) % s.cap else s.rc
        out := o } ∧
      (∀ i (h : i < s.src.bytes.length),
        (∀ j, i < j → j < s.src.bytes.length → (s.wc + j) % s.cap ≠ (s.wc + i) % s.cap) →
        store.read ((s.wc + i) % s.cap) = some s.src.bytes[i]) ∧
      (∀ a, (∀ i < s.src.bytes.length, (s.wc + i) % s.cap ≠ a) → store.read a = s.store.read a)

/-- R76: a `BUF_WRITE` that fits leaves `RC` alone and appends `SRC` to the unread region. -/
def Obligations.FittingWriteLosesNothing : Prop :=
  ∀ (s : State) (len : Arg), s.Inv → s.src.bytes.length = len.toNat →
    len.toNat ≤ s.cap - 1 - s.unread.length →
    ∃ t, exec (.bufWrite len) s = .next t ∧ t.rc = s.rc ∧ t.unread = s.unread ++ s.src.bytes

/-- R77: a `BUF_WRITE` that does not fit leaves the buffer full, with the newest `N - 1` bytes unread, oldest first. -/
def Obligations.OverflowKeepsNewestBytes : Prop :=
  ∀ (s : State) (len : Arg), s.Inv → s.src.bytes.length = len.toNat →
    s.cap - 1 - s.unread.length < len.toNat →
    ∃ t, exec (.bufWrite len) s = .next t ∧ t.occ = s.cap - 1 ∧
      t.unread = lastK (s.cap - 1) (s.unread ++ s.src.bytes)

/-- R74: `BUF_READ` copies the first `min(occ, max_len)` unread bytes to `DST`, writes no other byte of host memory,
advances `RC` by that count and reports it; nothing else changes. Its word is `(max_len << 8) | 0x03`. -/
def Obligations.BufReadCopiesFront : Prop :=
  ∀ (s : State) (maxLen : Arg), s.Inv → maxLen.toNat ≤ s.dst.cap →
    decode (maxLen.setWidth 32 <<< 8 ||| 0x03) = .ok (.bufRead maxLen) ∧ ∃ (m : Memory) (o : PortOut), Reports o .ok (min s.unread.length maxLen.toNat) 0 ∧
      exec (.bufRead maxLen) s = .next { s with
        hostMem := m
        rc := (s.rc + min s.unread.length maxLen.toNat) % s.cap
        out := o } ∧
      m.holds s.dst.base (s.unread.take maxLen.toNat) ∧
      s.hostMem.sameOutside m s.dst.base (min s.unread.length maxLen.toNat)

/-- R22, R74: a `BUF_READ` removes what it delivered from the front of the unread region. -/
def Obligations.BufReadRemovesFront : Prop :=
  ∀ (s t : State) (maxLen : Arg), s.Inv → exec (.bufRead maxLen) s = .next t →
    t.unread = s.unread.drop maxLen.toNat

/-- R79: over any run of non-overflowing writes and of reads, what was delivered and what is left unread are what was
unread and what was written; from an empty buffer the delivered bytes are a prefix of the written ones. -/
def Obligations.ReadsAreFirstInFirstOut : Prop :=
  ∀ (s u : State) (written delivered : List Byte), s.Inv → BufRun s written delivered u →
    delivered ++ u.unread = s.unread ++ written ∧ (s.rc = s.wc → delivered <+: written)

/-- R34: no command observes the reset contents of the storage: from a reachable state, with other unspecified
contents (another value of the free value's counter), every instruction does the same. -/
def Obligations.ResetContentsNeverObserved : Prop :=
  ∀ (i : Instr) (s t : State) (e : Nat), s.Inv → exec i s = .next t →
    exec i { s with epoch := e } = .next { t with epoch := e }

/-! ## The COBS byte rows -/

/-- R64: for every decoder state and byte exactly one of the rows of that byte runs; the others do not apply. -/
def Obligations.ExactlyOneRowApplies : Prop :=
  ∀ (s : State) (b : Byte), s.dec.dl ≤ s.dst.cap →
    ∃ i ∈ rowsOnByte b, (∃ t, exec i s = .next t) ∧
      ∀ j ∈ rowsOnByte b, j ≠ i → exec j s = .refused .rowNotSelected

/-- R80: row T1. -/
def Obligations.StrayZeroRowStaysIdle : Prop :=
  ∀ s : State, s.dec.ds = .idle →
    exec .cobsT1 s = .next { s with dec := { s.dec with ds := .idle, dr := 0 }, out := .result .noData }

/-- R81, R82, R84, R85, R89, R90: at a header position `0xFF` opens a 254-byte run and `b` in `0x01`..`0xFE` a run of
`b - 1` bytes; nothing is emitted and nothing else changes. -/
def Obligations.CodeByteRowsOpenRuns : Prop :=
  ∀ (s : State) (b : Byte), 0x01 ≤ b.toNat → b.toNat ≤ 0xFE →
    (s.dec.ds = .idle →
      exec .cobsT2 s = .next { s with dec := { s.dec with ds := .grabChain, dr := 254 }, out := .result .noData } ∧
      exec (.cobsT3 b) s =
        .next { s with dec := { s.dec with ds := .grab, dr := b.toNat - 1 }, out := .result .noData }) ∧
    (s.dec.ds = .grab → s.dec.dr = 0 →
      exec .cobsT5 s = .next { s with dec := { s.dec with ds := .grabChain, dr := 254 }, out := .result .noData } ∧
      exec (.cobsT6 b) s =
        .next { s with dec := { s.dec with ds := .grab, dr := b.toNat - 1 }, out := .result .noData }) ∧
    (s.dec.ds = .grabChain → s.dec.dr = 0 →
      exec .cobsT10 s = .next { s with dec := { s.dec with ds := .grabChain, dr := 254 }, out := .result .noData } ∧
      exec (.cobsT11 b) s =
        .next { s with dec := { s.dec with ds := .grab, dr := b.toNat - 1 }, out := .result .noData })

/-- R83, R88, R94: a `0x00` at a header position inside a packet completes it with length `DI` and leaves a fresh
decoder with `DL` kept. -/
def Obligations.EndRowsCompletePacket : Prop :=
  ∀ s : State, s.dec.dr = 0 →
    (s.dec.ds = .grab → exec .cobsT4 s = .next { s with
      dec := { ds := .idle, dr := 0, di := 0, dl := s.dec.dl }, out := .result (.packetComplete s.dec.di) }) ∧
    (s.dec.ds = .grabChain → exec .cobsT9 s = .next { s with
      dec := { ds := .idle, dr := 0, di := 0, dl := s.dec.dl }, out := .result (.packetComplete s.dec.di) })

/-- R86, R91: a `0x00` at a payload position is the error `PREMATURE_ZERO` and leaves a fresh decoder; the bytes
already in `DST` stay. -/
def Obligations.PrematureZeroRowsFail : Prop :=
  ∀ s : State, 0 < s.dec.dr →
    (s.dec.ds = .grab → exec .cobsT7 s = .next { s with
      dec := { ds := .idle, dr := 0, di := 0, dl := s.dec.dl }, out := .result (.error .prematureZero) }) ∧
    (s.dec.ds = .grabChain → exec .cobsT12 s = .next { s with
      dec := { ds := .idle, dr := 0, di := 0, dl := s.dec.dl }, out := .result (.error .prematureZero) })

/-- R87, R92, R93: a payload byte is written at `DST[DI]` and counted, and the state keeps its tag; with `DI = DL` it
is the error `DEST_OVERFLOW`, nothing is written and the decoder is fresh. -/
def Obligations.PayloadRowsEmit : Prop :=
  ∀ (s : State) (b : Byte), 0x01 ≤ b.toNat → 0 < s.dec.dr → s.dec.dl ≤ s.dst.cap →
    ∀ i, (s.dec.ds = .grab ∧ i = .cobsT8 b ∨ s.dec.ds = .grabChain ∧ i = .cobsT13 b) →
      (s.dec.di ≠ s.dec.dl → ∃ m : Memory,
        exec i s = .next { s with
          dec := { ds := s.dec.ds, dr := s.dec.dr - 1, di := s.dec.di + 1, dl := s.dec.dl }
          hostMem := m, out := .result (.emitByte b) } ∧
        m.read (s.dst.base + s.dec.di) = some b ∧ s.hostMem.sameOutside m (s.dst.base + s.dec.di) 1) ∧
      (s.dec.di = s.dec.dl → exec i s = .next { s with
        dec := { ds := .idle, dr := 0, di := 0, dl := s.dec.dl }, out := .result (.error .destOverflow) })

/-! ## The decoder's commands -/

/-- R99: `DEC_FEED` runs the row that the decoder state and the byte select, and reports its result. Its word is
`(b << 8) | 0x06`. -/
def Obligations.DecFeedRunsSelectedRow : Prop :=
  ∀ (s : State) (b : Byte), s.dec.dl ≤ s.dst.cap →
    decode (b.setWidth 32 <<< 8 ||| 0x06) = .ok (.decFeed b) ∧ ∃ (i : Instr) (t : State) (r : StepResult) (o : PortOut),
      decodeKey (keyOf s.dec.ds.code (0 < s.dec.dr) b) = .ok i ∧ exec i s = .next t ∧ t.out = .result r ∧
      exec (.decFeed b) s = .next { t with out := o } ∧
      o = match r with
        | .noData => .response ⟨.noData, 0, 0⟩
        | .emitByte c => .response ⟨.emit, c.setWidth 24, 0⟩
        | .packetComplete l => .response ⟨.complete, BitVec.ofNat 24 l, 0⟩
        | .error .prematureZero => .response ⟨.error, 1, 0⟩
        | .error .destOverflow => .response ⟨.error, 2, 0⟩

/-- R96, R99: `DEC_FEED` is the whole transition function: its response, the decoder it leaves and the byte it writes,
for every decoder state and byte. Nothing else changes. -/
def Obligations.DecFeedFollowsTransitionFunction : Prop :=
  ∀ (s : State) (b : Byte), s.dec.Inv → s.dec.dl ≤ s.dst.cap →
    ∃ (d : Decoder) (m : Memory) (o : PortOut),
      exec (.decFeed b) s = .next { s with dec := d, hostMem := m, out := o } ∧
      (s.dec.ds = .idle → b = 0x00 →
        d = { s.dec with ds := .idle, dr := 0 } ∧ m = s.hostMem ∧ Reports o .noData 0 0) ∧
      (s.dec.ds = .idle ∨ s.dec.dr = 0 → b = 0xFF →
        d = { s.dec with ds := .grabChain, dr := 254 } ∧ m = s.hostMem ∧ Reports o .noData 0 0) ∧
      (s.dec.ds = .idle ∨ s.dec.dr = 0 → b ≠ 0x00 → b ≠ 0xFF →
        d = { s.dec with ds := .grab, dr := b.toNat - 1 } ∧ m = s.hostMem ∧ Reports o .noData 0 0) ∧
      (s.dec.ds ≠ .idle → s.dec.dr = 0 → b = 0x00 →
        d = { ds := .idle, dr := 0, di := 0, dl := s.dec.dl } ∧ m = s.hostMem ∧ Reports o .complete s.dec.di 0) ∧
      (s.dec.ds ≠ .idle → 0 < s.dec.dr → b = 0x00 →
        d = { ds := .idle, dr := 0, di := 0, dl := s.dec.dl } ∧ m = s.hostMem ∧ Reports o .error 1 0) ∧
      (s.dec.ds ≠ .idle → 0 < s.dec.dr → b ≠ 0x00 → s.dec.di = s.dec.dl →
        d = { ds := .idle, dr := 0, di := 0, dl := s.dec.dl } ∧ m = s.hostMem ∧ Reports o .error 2 0) ∧
      (s.dec.ds ≠ .idle → 0 < s.dec.dr → b ≠ 0x00 → s.dec.di ≠ s.dec.dl →
        d = { s.dec with dr := s.dec.dr - 1, di := s.dec.di + 1 } ∧
        m.read (s.dst.base + s.dec.di) = some b ∧ s.hostMem.sameOutside m (s.dst.base + s.dec.di) 1 ∧
        Reports o .emit b.toNat 0)

/-- R97: `DEC_RESET` leaves a fresh decoder of the given capacity; nothing else changes. Its word is
`(dest_len << 8) | 0x05`. -/
def Obligations.DecResetStartsFreshSession : Prop :=
  ∀ (s : State) (destLen : Arg), decode (destLen.setWidth 32 <<< 8 ||| 0x05) = .ok (.decReset destLen) ∧ ∃ o : PortOut, Reports o .ok 0 0 ∧
    exec (.decReset destLen) s =
      .next { s with dec := { ds := .idle, dr := 0, di := 0, dl := destLen.toNat }, out := o }

/-- R101: `DEC_STATUS` reports the code of `DS` and `DR` in `V0` and `DI` in `V1`; nothing changes. Its word is
`0x00000009`. -/
def Obligations.DecStatusReportsRegisters : Prop :=
  decode 0x00000009 = .ok .decStatus ∧ ∀ s : State, s.dec.Inv → ∃ o : PortOut,
    Reports o .status ((match s.dec.ds with | .idle => 0 | .grab => 1 | .grabChain => 2) + 256 * s.dec.dr) s.dec.di ∧
    exec .decStatus s = .next { s with out := o }

/-- R100: `DEC_PUSH` of nothing changes nothing; `DEC_PUSH` of a byte and more stops with the byte's `DEC_FEED` if that
completes or fails, and otherwise is the `DEC_PUSH` of the rest after it, with one more byte consumed. Its word is
`(len << 8) | 0x07`. -/
def Obligations.DecPushFeedsByteByByte : Prop :=
  (∀ len : Arg, decode (len.setWidth 32 <<< 8 ||| 0x07) = .ok (.decPush len)) ∧
  ∀ s : State, s.dec.Inv → s.dec.dl ≤ s.dst.cap → s.RegionsApart → s.src.bytes.length < 2 ^ 24 →
    (s.src.bytes = [] → ∃ o, Reports o .pushIncomplete 0 0 ∧ exec (.decPush 0) s = .next { s with out := o }) ∧
    (∀ b bs, s.src.bytes = b :: bs → ∃ t, exec (.decFeed b) s = .next t ∧
      (∀ l, Reports t.out .complete l 0 → ∃ o, Reports o .pushComplete l 1 ∧
        exec (.decPush (argOfLength s.src.bytes.length)) s = .next { t with out := o }) ∧
      (∀ k, Reports t.out .error k 0 → ∃ o, Reports o .pushError k 0 ∧
        exec (.decPush (argOfLength s.src.bytes.length)) s = .next { t with out := o }) ∧
      ((∃ v, Reports t.out .noData v 0 ∨ Reports t.out .emit v 0) → ∃ u c v0 v1 o,
        exec (.decPush (argOfLength bs.length)) { t with src := ⟨s.src.base + 1, bs⟩ } = .next u ∧
        Reports u.out c v0 v1 ∧ Reports o c v0 (v1 + 1) ∧
        exec (.decPush (argOfLength s.src.bytes.length)) s = .next { u with src := s.src, out := o }))

/-- R37, R38, R61, R100: `DEC_PUSH` completes whenever the host supplies the regions it owes; it changes only the
decoder, with `DL` kept, and bytes of `DST` below `DL`, and consumes at most `len` bytes. -/
def Obligations.DecPushStaysInDst : Prop :=
  ∀ (s : State) (len : Arg), s.dec.Inv → s.src.bytes.length = len.toNat → s.dec.dl ≤ s.dst.cap → s.RegionsApart →
    ∃ (d : Decoder) (m : Memory) (o : PortOut) (c : RespCode) (v0 v1 : Nat),
      exec (.decPush len) s = .next { s with dec := d, hostMem := m, out := o } ∧ d.dl = s.dec.dl ∧
      s.hostMem.sameOutside m s.dst.base s.dec.dl ∧ Reports o c v0 v1 ∧ v1 ≤ len.toNat ∧
      (c = .pushComplete ∧ v0 ≤ s.dec.dl ∨ c = .pushError ∧ (v0 = 1 ∨ v0 = 2) ∨
        c = .pushIncomplete ∧ v0 = 0 ∧ v1 = len.toNat)

/-- R106: a push split in two. If the first part is incomplete, the second part from where it left off gives what the
whole gives: the same code, `V0`, decoder and `DST`, with `V1` smaller by the length of the first part. -/
def Obligations.SplittingAPushChangesNothing : Prop :=
  ∀ (s t : State) (xs ys : List Byte), s.dec.Inv → s.dec.dl ≤ s.dst.cap → s.RegionsApart →
    s.src.bytes = xs ++ ys → s.src.bytes.length < 2 ^ 24 →
    exec (.decPush (argOfLength xs.length)) { s with src := ⟨s.src.base, xs⟩ } = .next t →
    Reports t.out .pushIncomplete 0 xs.length →
    ∃ u c v0 v1 o,
      exec (.decPush (argOfLength ys.length)) { t with src := ⟨s.src.base + xs.length, ys⟩ } = .next u ∧
      Reports u.out c v0 v1 ∧ Reports o c v0 (v1 + xs.length) ∧
      exec (.decPush (argOfLength s.src.bytes.length)) s = .next { u with src := s.src, out := o }

/-- R107: bytes after the one where a push stops have no effect. -/
def Obligations.BytesAfterAStopHaveNoEffect : Prop :=
  ∀ (s t : State) (xs ys : List Byte) (c : RespCode) (v0 v1 : Nat), s.dec.dl ≤ s.dst.cap → s.RegionsApart →
    s.src.bytes = xs ++ ys → s.src.bytes.length < 2 ^ 24 →
    exec (.decPush (argOfLength xs.length)) { s with src := ⟨s.src.base, xs⟩ } = .next t →
    Reports t.out c v0 v1 → c ≠ .pushIncomplete →
    exec (.decPush (argOfLength s.src.bytes.length)) s = .next { t with src := s.src }

/-- R65, R66: a chunk is decoded whole: at a header position a code byte and its run, with no zero byte and room for
it in `DST`, are all consumed; the run stands in `DST` at `DI`, `DI` has advanced past it, and the next byte is at a
header position. -/
def Obligations.ChunkIsDecodedWhole : Prop :=
  ∀ (s : State) (code : Byte) (run : List Byte), s.dec.Inv → s.dec.dl ≤ s.dst.cap → s.RegionsApart →
    (s.dec.ds = .idle ∨ s.dec.dr = 0) → code ≠ 0x00 →
    run.length = (if code = 0xFF then 254 else code.toNat - 1) → (∀ x ∈ run, x ≠ 0x00) →
    s.dec.di + run.length ≤ s.dec.dl → s.src.bytes = code :: run →
    ∃ (m : Memory) (o : PortOut), Reports o .pushIncomplete 0 (run.length + 1) ∧
      exec (.decPush (argOfLength (run.length + 1))) s = .next { s with
        dec := { ds := if code = 0xFF then .grabChain else .grab
                 dr := 0, di := s.dec.di + run.length, dl := s.dec.dl }
        hostMem := m, out := o } ∧
      m.holds (s.dst.base + s.dec.di) run ∧ s.hostMem.sameOutside m (s.dst.base + s.dec.di) run.length

/-- R105: the round trip for zero-free payloads of up to 508 bytes, with the final chunk and, for a positive multiple
of 254, without it. -/
def Obligations.RoundTripOfZeroFreePayloads : Prop :=
  ∀ (s : State) (p enc : List Byte), p.length ≤ 2 * 254 → (∀ x ∈ p, x ≠ 0x00) →
    (enc = cobsEncode p ∨ 0 < p.length ∧ p.length % 254 = 0 ∧ enc = cobsEncodeFull p) →
    s.dec.ds = .idle → s.dec.dr = 0 → s.dec.di = 0 → p.length ≤ s.dec.dl → s.dec.dl ≤ s.dst.cap →
    s.src.bytes = enc → s.RegionsApart →
    ∃ (m : Memory) (o : PortOut), Reports o .pushComplete p.length enc.length ∧
      exec (.decPush (argOfLength enc.length)) s = .next { s with hostMem := m, out := o } ∧
      m.holds s.dst.base p ∧ s.hostMem.sameOutside m s.dst.base p.length

/-- R102: a step from `Grab` and one from `GrabChain` with the other registers equal do the same; only the tag that a
payload byte keeps differs. -/
def Obligations.GrabAndGrabChainAlike : Prop :=
  ∀ (s : State) (b : Byte), s.dec.dl ≤ s.dst.cap → ∃ t u,
    exec (.decFeed b) { s with dec := { s.dec with ds := .grab } } = .next t ∧
    exec (.decFeed b) { s with dec := { s.dec with ds := .grabChain } } = .next u ∧
    t.out = u.out ∧ t.hostMem = u.hostMem ∧ t.dec.dr = u.dec.dr ∧ t.dec.di = u.dec.di ∧ t.dec.dl = u.dec.dl ∧
    (t.dec.ds = u.dec.ds ∨
      0 < s.dec.dr ∧ b ≠ 0x00 ∧ s.dec.di ≠ s.dec.dl ∧ t.dec.ds = .grab ∧ u.dec.ds = .grabChain)

/-- R103, R108: from a fresh state the first byte is never an error, a `PUSH_ERROR` has consumed at least one byte and
a `PUSH_COMPLETE` at least two. -/
def Obligations.FreshSessionsMakeProgress : Prop :=
  ∀ (s t : State), s.dec.ds = .idle → s.dec.dr = 0 → s.dec.di = 0 → s.dec.dl < 2 ^ 24 →
    (∀ b, exec (.decFeed b) s = .next t → Reports t.out .noData 0 0) ∧
    (∀ len v0 v1, exec (.decPush len) s = .next t →
      (Reports t.out .pushError v0 v1 → 1 ≤ v1) ∧ (Reports t.out .pushComplete v0 v1 → 2 ≤ v1))

/-- R109: zeros fed to an idle decoder are consumed with no result and change nothing. -/
def Obligations.ZerosAloneNeverComplete : Prop :=
  ∀ (s : State) (n : Nat), s.dec.ds = .idle → s.dec.dr = 0 → n < 2 ^ 24 → s.dec.dl ≤ s.dst.cap →
    s.src.bytes = List.replicate n 0x00 → s.RegionsApart →
    ∃ o, Reports o .pushIncomplete 0 n ∧ exec (.decPush (argOfLength n)) s = .next { s with out := o }

/-- R132: an error at byte `i` leaves `DST` as the bytes before `i` left it, and the decoder fresh with `DL` kept. -/
def Obligations.PushErrorsArePrecise : Prop :=
  ∀ (s t : State) (len : Arg) (k i : Nat), s.dec.Inv → exec (.decPush len) s = .next t →
    Reports t.out .pushError k i →
    i < len.toNat ∧ t.dec = { ds := .idle, dr := 0, di := 0, dl := s.dec.dl } ∧
    ∃ u, exec (.decPush (argOfLength i)) { s with src := ⟨s.src.base, s.src.bytes.take i⟩ } = .next u ∧
      Reports u.out .pushIncomplete 0 i ∧ t.hostMem = u.hostMem

/-- R68: no decoded byte is zero: an instruction other than `BUF_READ` never stores a zero byte to host memory. -/
def Obligations.DecodedBytesAreNeverZero : Prop :=
  ∀ (i : Instr) (s t : State) (a : Nat), (∀ n, i ≠ .bufRead n) → exec i s = .next t →
    t.hostMem.read a ≠ s.hostMem.read a → t.hostMem.read a ≠ some 0x00

/-! ## READ_PACKET -/

/-- R112: on an empty buffer nothing is decoded and nothing changes. -/
def Obligations.ReadPacketOnEmptyBuffer : Prop :=
  ∀ (s : State) (destLen : Arg), s.rc = s.wc → destLen.toNat ≤ s.dst.cap →
    ∃ o, Reports o .rpNoBytes 0 0 ∧ exec (.readPacket destLen) s = .next { s with out := o }

/-- R122: `READ_PACKET` is a linear decode of the unread region, wherever it stands in the storage: its outcome, its
`DST` bytes and its advance of `RC` are those of a fresh session that is pushed the unread bytes; nothing else changes.
It completes for every state and operand with room in `DST`. -/
def Obligations.ReadPacketIsLinearDecode : Prop :=
  ∀ (s : State) (destLen : Arg), s.Inv → destLen.toNat ≤ s.dst.cap →
    ∃ (u : State) (c : RespCode) (v0 v1 : Nat) (o : PortOut),
      exec (.decPush (argOfLength s.unread.length)) { s with
        dec := { ds := .idle, dr := 0, di := 0, dl := destLen.toNat }
        src := ⟨s.dst.base + s.dst.cap, s.unread⟩ } = .next u ∧
      Reports u.out c v0 v1 ∧
      exec (.readPacket destLen) s = .next { s with
        hostMem := u.hostMem
        rc := if c = .pushIncomplete then s.rc else (s.rc + v1) % s.cap
        out := o } ∧
      (c = .pushComplete ∧ Reports o .rpOk v0 v1 ∨ c = .pushError ∧ Reports o .rpCorrupt v0 v1 ∨
        c = .pushIncomplete ∧ Reports o (if s.rc = s.wc then .rpNoBytes else .rpIncomplete) 0 0)

/-- R122, R123: what `READ_PACKET` reports and writes depends on the unread bytes and `dest_len` only, not on where
they stand, nor on the capacity. -/
def Obligations.StraddlingMakesNoDifference : Prop :=
  ∀ (s s' t : State) (destLen : Arg), s.Inv → s'.Inv → s'.unread = s.unread → s'.dst = s.dst →
    s'.hostMem = s.hostMem → exec (.readPacket destLen) s = .next t →
    ∃ t', exec (.readPacket destLen) s' = .next t' ∧ t'.out = t.out ∧ t'.hostMem = t.hostMem ∧
      t'.unread = t.unread

/-- R28, R121: `READ_PACKET` writes only `RC`, the port and `DST[0..dest_len-1]`. -/
def Obligations.ReadPacketWritesOnlyCursorAndDst : Prop :=
  ∀ (s t : State) (destLen : Arg), exec (.readPacket destLen) s = .next t →
    t = { s with rc := t.rc, hostMem := t.hostMem, out := t.out } ∧
    s.hostMem.sameOutside t.hostMem s.dst.base destLen.toNat

/-- R124: `RP_OK` advances `RC` by at least two and `RP_CORRUPT` by at least one, the others not at all, and never past
the unread bytes; what is left unread is what the advance leaves. -/
def Obligations.ReadPacketMakesProgress : Prop :=
  ∀ (s t : State) (destLen : Arg) (c : RespCode) (v0 v1 : Nat), s.Inv → exec (.readPacket destLen) s = .next t →
    Reports t.out c v0 v1 →
    (c = .rpOk → 2 ≤ v1) ∧ (c = .rpCorrupt → 1 ≤ v1) ∧ (c = .rpNoBytes ∨ c = .rpIncomplete → v1 = 0) ∧
    v1 ≤ s.unread.length ∧ t.rc = (s.rc + v1) % s.cap ∧ t.unread = s.unread.drop v1

/-- R118, R134: after `RP_CORRUPT` the next unread byte is the offending one: a zero after a premature zero, a non-zero
byte after a destination overflow. -/
def Obligations.CorruptStopsAtOffendingByte : Prop :=
  ∀ (s t : State) (destLen : Arg) (k adv : Nat), s.Inv → exec (.readPacket destLen) s = .next t →
    Reports t.out .rpCorrupt k adv →
    ∃ b rest, t.unread = b :: rest ∧ (k = 1 ∧ b = 0x00 ∨ k = 2 ∧ b ≠ 0x00)

/-- R126: `RP_OK` needs the whole encoding unread: the last byte it consumes is an unread `0x00`, and at most `N - 1`
bytes are unread, so it never consumes more than that. -/
def Obligations.PacketNeedsItsDelimiterUnread : Prop :=
  ∀ (s t : State) (destLen : Arg) (l adv : Nat), s.Inv → exec (.readPacket destLen) s = .next t →
    Reports t.out .rpOk l adv →
    s.unread.length ≤ s.cap - 1 ∧ adv ≤ s.cap - 1 ∧ s.unread[adv - 1]? = some 0x00 ∧ l ≤ destLen.toNat

/-- R120, R125: after `RP_INCOMPLETE`, another `READ_PACKET` gives the same and changes nothing. -/
def Obligations.IncompletePollIsIdempotent : Prop :=
  ∀ (s t : State) (destLen : Arg), s.Inv → exec (.readPacket destLen) s = .next t →
    Reports t.out .rpIncomplete 0 0 → t.rc = s.rc ∧ exec (.readPacket destLen) t = .next t

/-- R125: a `READ_PACKET` after an `RP_INCOMPLETE` and a fitting `BUF_WRITE` gives what it would have given without
the first one. -/
def Obligations.RetryAfterAppendLosesNothing : Prop :=
  ∀ (s t v v' w w' : State) (destLen len : Arg), s.Inv →
    exec (.readPacket destLen) s = .next t → Reports t.out .rpIncomplete 0 0 →
    len.toNat ≤ s.cap - 1 - s.unread.length →
    exec (.bufWrite len) t = .next v → exec (.readPacket destLen) v = .next w →
    exec (.bufWrite len) s = .next v' → exec (.readPacket destLen) v' = .next w' → w = w'

/-! ## The port, reset and the whole machine -/

/-- R44, R47, R52: when the host's next event is a command whose word decodes, a step runs that instruction with the
command's regions at the port. -/
def Obligations.StepRunsDecodedCommand : Prop :=
  ∀ (s : State) (r : Request) (rest : List HostEvent) (i : Instr),
    s.pending = .command r :: rest → s.line = .released → r.overlapping = false → decode r.word = .ok i →
    step s = exec i { s with pending := rest, src := r.src, dst := r.dst, out := .nothing }

/-- R2, R62, R64 and log entry 7 (the byte event is the model's choice): a byte for the decoder leaf runs the row of
its key. -/
def Obligations.StepRunsSelectedRow : Prop :=
  ∀ (s : State) (b : Byte) (dst : DstRegion) (rest : List HostEvent) (i : Instr),
    s.pending = .cobsByte b dst :: rest → s.line = .released →
    decodeKey (keyOf s.dec.ds.code (0 < s.dec.dr) b) = .ok i →
    step s = exec i { s with pending := rest, src := ⟨0, []⟩, dst := dst, out := .nothing }

/-- R54: exactly the reserved words are refused as such. -/
def Obligations.ReservedWordsAreRefused : Prop :=
  ∀ (s : State) (r : Request) (rest : List HostEvent),
    s.pending = .command r :: rest → s.line = .released → r.overlapping = false →
    ((∃ e, step s = .refused (.reserved e)) ↔ ReservedWord r.word)

/-- R142, R144: a command before the first reset, while reset is asserted, or overlapping another is refused. -/
def Obligations.UntimelyCommandsAreRefused : Prop :=
  ∀ (s : State) (r : Request) (rest : List HostEvent), s.pending = .command r :: rest →
    (s.line = .beforeFirst → step s = .refused .beforeFirstReset) ∧
    (s.line = .asserted → step s = .refused .resetAsserted) ∧
    (s.line = .released → r.overlapping = true → step s = .refused .overlappingCommand)

/-- R46, R61 (a longer `SRC` is refused too: D22, log entry 9): a command whose regions are not what the host owes is
refused. -/
def Obligations.BadRegionsAreRefused : Prop :=
  ∀ (s : State) (n : Arg),
    (s.src.bytes.length ≠ n.toNat → exec (.bufWrite n) s = .refused .srcLength ∧
      exec (.decPush n) s = .refused .srcLength) ∧
    (s.dst.cap < n.toNat → exec (.bufRead n) s = .refused .dstTooShort ∧
      exec (.readPacket n) s = .refused .dstTooShort) ∧
    (s.dst.cap < s.dec.dl → (∀ b, exec (.decFeed b) s = .refused .dstTooShort) ∧
      (s.src.bytes.length = n.toNat → exec (.decPush n) s = .refused .dstTooShort)) ∧
    (s.src.bytes.length = n.toNat → s.dec.dl ≤ s.dst.cap → ¬ s.RegionsApart →
      exec (.decPush n) s = .refused .dstOverlapsSrc)

/-- R141: asserting reset sets every register and writes no host memory. -/
def Obligations.AssertingResetClearsRegisters : Prop :=
  ∀ (s : State) (rest : List HostEvent), s.pending = .assertReset :: rest →
    ∃ t, step s = .next t ∧ t.wc = 0 ∧ t.rc = 0 ∧ t.dec = { ds := .idle, dr := 0, di := 0, dl := 0 } ∧
      t.line = .asserted ∧ t.cap = s.cap ∧ t.hostMem = s.hostMem ∧ t.pending = rest ∧ t.unread = []

/-- R143: after a reset is asserted and released, the block is as newly powered: the state right after reset, but for
what is the host's (its memory, its plans) and the unspecified contents of the storage. -/
def Obligations.ResetLeavesNothingBehind : Prop :=
  ∀ (s : State) (rest : List HostEvent), s.pending = .assertReset :: .releaseReset :: rest →
    ∃ t e, step s = .next t ∧ step t = .next { State.resetWith s.cap with
      hostMem := s.hostMem, pending := rest, epoch := e }

/-- R33, R35: the reset values that the spec gives, for every capacity; the buffer is empty. -/
def Obligations.ResetValues : Prop :=
  ∀ n : Nat, (State.resetWith n).wc = 0 ∧ (State.resetWith n).rc = 0 ∧ (State.resetWith n).dec.ds = .idle ∧
    (State.resetWith n).dec.dr = 0 ∧ (State.resetWith n).dec.di = 0 ∧ (State.resetWith n).dec.dl = 0 ∧
    (State.resetWith n).unread = []

/-- The state after reset is good, for every legal capacity, and so is the model's own reset state. -/
def Obligations.ResetStateIsGood : Prop :=
  (∀ n, 2 ≤ n → n ≤ 2 ^ 24 → (State.resetWith n).Inv) ∧ State.reset.Inv

/-- R19, R27, R78 and the canonical form of memory: every step keeps the invariant. -/
def Obligations.StepKeepsInvariant : Prop :=
  ∀ s t : State, s.Inv → step s = .next t → t.Inv

/-- R19, R26 and the "written by" column of 10_state.md: which instruction may write which register. -/
def Obligations.WhoWritesWhat : Prop :=
  ∀ (i : Instr) (s t : State), exec i s = .next t →
    (t.wc ≠ s.wc ∨ t.store ≠ s.store → ∃ len, i = .bufWrite len) ∧
    (t.rc ≠ s.rc → (∃ n, i = .bufRead n) ∨ (∃ n, i = .readPacket n) ∨
      ∃ len, i = .bufWrite len ∧ s.availWrite < len.toNat) ∧
    (t.dec.dl ≠ s.dec.dl → ∃ n, i = .decReset n) ∧
    (t.dec ≠ s.dec → (∃ n, i = .decReset n) ∨ (∃ b, i = .decFeed b) ∨ (∃ n, i = .decPush n) ∨
      ∃ b, i ∈ rowsOnByte b) ∧
    (t.hostMem ≠ s.hostMem → (∃ n, i = .bufRead n) ∨ (∃ n, i = .readPacket n) ∨ (∃ b, i = .decFeed b) ∨
      (∃ n, i = .decPush n) ∨ ∃ b, i = .cobsT8 b ∨ i = .cobsT13 b) ∧
    t.cap = s.cap ∧ t.line = s.line ∧ t.src = s.src ∧ t.dst = s.dst ∧ t.pending = s.pending ∧ t.epoch = s.epoch

/-- R30: no response is kept: what the port drove before makes no difference to any instruction. -/
def Obligations.ResponsesAreNotState : Prop :=
  ∀ (i : Instr) (s : State) (o : PortOut), exec i { s with out := o } = exec i s

/-- R28 and 40_buffer_ops.md: the buffer's commands and `READ_PACKET` neither read nor write the decoder. -/
def Obligations.BufferCommandsIgnoreDecoder : Prop :=
  ∀ (i : Instr) (s t : State) (d : Decoder),
    (i = .bufAvailRead ∨ i = .bufAvailWrite ∨ (∃ n, i = .bufRead n) ∨ (∃ n, i = .bufWrite n) ∨
      ∃ n, i = .readPacket n) →
    exec i s = .next t → t.dec = s.dec ∧ exec i { s with dec := d } = .next { t with dec := d }

/-- R2: the decoder's commands and the rows neither read nor write the buffer, whatever it holds. -/
def Obligations.DecoderCommandsIgnoreBuffer : Prop :=
  ∀ (i : Instr) (s t : State) (store : Memory) (wc rc : Nat),
    ((∃ n, i = .decReset n) ∨ (∃ b, i = .decFeed b) ∨ (∃ n, i = .decPush n) ∨ i = .decStatus ∨
      ∃ b, i ∈ rowsOnByte b) →
    exec i s = .next t → t.store = s.store ∧ t.wc = s.wc ∧ t.rc = s.rc ∧
      exec i { s with store := store, wc := wc, rc := rc } = .next { t with store := store, wc := wc, rc := rc }

/-! ## Encodings -/

/-- Decoding the encoding of every well-formed instruction gives it back. -/
def Obligations.DecodeOfEncode : Prop :=
  ∀ i : Instr, i.WellFormed → decodeEncoded (encode i) = .ok i

/-- R52, R53: a command word that decodes is the encoding of what it decodes to, and that is well-formed: no bit of it
is dropped. -/
def Obligations.EncodeOfDecode : Prop :=
  ∀ (w : CmdWord) (i : Instr), decode w = .ok i → i.WellFormed ∧ encode i = .word w

/-- The opcode table: an encoding decodes to the instruction of the first row that covers it, and to none when no row
does. -/
def Obligations.DecoderFollowsOpcodeTable : Prop :=
  ∀ e : Encoded, (decodeEncoded e).toOption.map mnemonicOf = (opcodeTable.find? (·.covers e)).map (·.mnemonic)

/-- 95_test_vectors.md, section 2.5 (V-E1 to V-E19): the words it lists decode as it says. -/
def Obligations.WordsOfTheSpecDecode : Prop :=
  decode 0x00000001 = .ok .bufAvailRead ∧ decode 0x00000002 = .ok .bufAvailWrite ∧
  decode 0x00000503 = .ok (.bufRead 5) ∧ decode 0x00000704 = .ok (.bufWrite 7) ∧
  decode 0xFFFFFF04 = .ok (.bufWrite 16777215) ∧ decode 0x00001005 = .ok (.decReset 16) ∧
  decode 0x00004106 = .ok (.decFeed 0x41) ∧ decode 0x0000FF06 = .ok (.decFeed 0xFF) ∧
  decode 0x00000006 = .ok (.decFeed 0x00) ∧ decode 0x00000307 = .ok (.decPush 3) ∧
  decode 0x00000808 = .ok (.readPacket 8) ∧ decode 0x00000008 = .ok (.readPacket 0) ∧
  decode 0x00000009 = .ok .decStatus ∧ (decode 0x00000000).toOption = none ∧
  (decode 0x0000000A).toOption = none ∧ (decode 0x000000FF).toOption = none ∧
  (decode 0x00000101).toOption = none ∧ (decode 0x01000009).toOption = none ∧
  (decode 0x00010006).toOption = none

/-- R56, R57, R58: the numbers of the response codes, the error kinds and the decoder states. -/
def Obligations.NumbersOfCodes : Prop :=
  [RespCode.ok, .noData, .emit, .complete, .error, .pushComplete, .pushError, .pushIncomplete, .rpOk, .rpNoBytes,
    .rpIncomplete, .rpCorrupt, .status].map RespCode.number =
    [0x00, 0x10, 0x11, 0x12, 0x13, 0x20, 0x21, 0x22, 0x30, 0x31, 0x32, 0x33, 0x40] ∧
  [ErrorKind.prematureZero, .destOverflow].map ErrorKind.number = [1, 2] ∧
  [DecState.idle, .grab, .grabChain].map DecState.code = [0, 1, 2]
end

