-- ==== Sys2Proof/Laws/Memory.lean ====
section
/-! SUPPORT. The laws of memory: read after write, the canonical form, and equality of memories that read alike. -/

namespace Sys2Proof.Machine

@[simp] theorem Memory.read_nil (a : Nat) : Memory.read [] a = none := rfl

theorem Memory.read_cons (k : Nat) (v : Byte) (m : Memory) (a : Nat) :
    Memory.read ((k, v) :: m) a = if k = a then some v else m.read a := rfl

/-- A write leaves its own byte at the address and every other address alone. -/
theorem Memory.read_write (m : Memory) (a : Nat) (v : Byte) (b : Nat) :
    (m.write a v).read b = if a = b then some v else m.read b := by
  induction m with
  | nil => rfl
  | cons c m ih =>
    obtain ⟨k, w⟩ := c
    simp only [Memory.write]
    split
    · rfl
    · split
      · subst_vars; simp only [Memory.read_cons]; split <;> rfl
      · simp only [Memory.read_cons, ih]; split <;> split <;> simp_all

@[simp] theorem Memory.read_write_same (m : Memory) (a : Nat) (v : Byte) : (m.write a v).read a = some v := by
  simp [Memory.read_write]

theorem Memory.read_write_other (m : Memory) {a b : Nat} (v : Byte) (h : a ≠ b) :
    (m.write a v).read b = m.read b := by
  simp [Memory.read_write, h]

/-- The addresses of a written memory are the old ones and the new one. -/
theorem Memory.mem_write {m : Memory} {a : Nat} {v : Byte} {c : Host.Cell} (h : c ∈ m.write a v) :
    c = (a, v) ∨ c ∈ m := by
  induction m with
  | nil => simpa [Memory.write] using h
  | cons d m ih =>
    obtain ⟨k, w⟩ := d
    simp only [Memory.write] at h
    split at h
    · simpa using h
    · split at h
      · rcases List.mem_cons.1 h with h | h
        · exact .inl h
        · exact .inr (List.mem_cons_of_mem _ h)
      · rcases List.mem_cons.1 h with h | h
        · exact .inr (h ▸ List.mem_cons_self)
        · exact (ih h).imp id (List.mem_cons_of_mem _)

/-- A write keeps the canonical form. -/
theorem Memory.wf_write {m : Memory} (h : m.wf) (a : Nat) (v : Byte) : (m.write a v).wf := by
  induction m with
  | nil => simp [Memory.write, Memory.wf]
  | cons c m ih =>
    obtain ⟨k, w⟩ := c
    obtain ⟨hk, hm⟩ := List.pairwise_cons.1 h
    simp only [Memory.write]
    split
    · rename_i hlt
      refine List.pairwise_cons.2 ⟨fun x hx => ?_, h⟩
      rcases List.mem_cons.1 hx with rfl | hx
      · exact hlt
      · exact Nat.lt_trans hlt (hk x hx)
    · split
      · subst_vars; exact List.pairwise_cons.2 ⟨hk, hm⟩
      · refine List.pairwise_cons.2 ⟨fun x hx => ?_, ih hm⟩
        rcases Memory.mem_write hx with rfl | hx
        · simp only; omega
        · exact hk x hx

/-- Below the first address of a canonical memory nothing has a value. -/
theorem Memory.read_eq_none_of_lt {m : Memory} {a : Nat} (h : ∀ c ∈ m, a < c.1) : m.read a = none := by
  induction m with
  | nil => rfl
  | cons c m ih =>
    obtain ⟨k, w⟩ := c
    have := h (k, w) List.mem_cons_self
    rw [Memory.read_cons, if_neg (by simp only at this; omega)]
    exact ih fun c hc => h c (List.mem_cons_of_mem _ hc)

/-- Canonical memories that read alike are the same data. -/
theorem Memory.ext {m n : Memory} (hm : m.wf) (hn : n.wf) (h : ∀ a, m.read a = n.read a) : m = n := by
  induction m generalizing n with
  | nil =>
    cases n with
    | nil => rfl
    | cons c n => obtain ⟨l, w⟩ := c; have := h l; simp [Memory.read_cons] at this
  | cons c m ih =>
    obtain ⟨k, v⟩ := c
    obtain ⟨hk, hm'⟩ := List.pairwise_cons.1 hm
    cases n with
    | nil => have := h k; simp [Memory.read_cons] at this
    | cons e n =>
      obtain ⟨l, w⟩ := e
      obtain ⟨hl, hn'⟩ := List.pairwise_cons.1 hn
      have hkl : k = l := by
        rcases Nat.lt_trichotomy k l with hlt | heq | hlt
        · have hnone := Memory.read_eq_none_of_lt (m := (l, w) :: n) (a := k) fun c hc => by
            rcases List.mem_cons.1 hc with rfl | hc
            · exact hlt
            · exact Nat.lt_trans hlt (hl c hc)
          have := h k; rw [hnone] at this; simp [Memory.read_cons] at this
        · exact heq
        · have hnone := Memory.read_eq_none_of_lt (m := (k, v) :: m) (a := l) fun c hc => by
            rcases List.mem_cons.1 hc with rfl | hc
            · exact hlt
            · exact Nat.lt_trans hlt (hk c hc)
          have := h l; rw [hnone] at this; simp [Memory.read_cons] at this
      subst hkl
      have hv : v = w := by have := h k; simpa [Memory.read_cons] using this
      subst hv
      rw [ih hm' hn' fun a => ?_]
      by_cases ha : k = a
      · subst ha
        rw [Memory.read_eq_none_of_lt hk, Memory.read_eq_none_of_lt hl]
      · have := h a; simpa [Memory.read_cons, ha] using this

/-- Writing what an address already holds changes nothing. -/
theorem Memory.write_same {m : Memory} (hm : m.wf) {a : Nat} {v : Byte} (h : m.read a = some v) : m.write a v = m :=
  Memory.ext (Memory.wf_write hm a v) hm fun b => by
    rw [Memory.read_write]; split
    · subst_vars; exact h.symm
    · rfl

/-! ### Consecutive bytes -/

@[simp] theorem Memory.writeBytes_nil (m : Memory) (a : Nat) : m.writeBytes a [] = m := rfl

@[simp] theorem Memory.writeBytes_cons (m : Memory) (a : Nat) (b : Byte) (bs : List Byte) :
    m.writeBytes a (b :: bs) = (m.write a b).writeBytes (a + 1) bs := rfl

theorem Memory.wf_writeBytes {m : Memory} (h : m.wf) (a : Nat) (bs : List Byte) : (m.writeBytes a bs).wf := by
  induction bs generalizing m a with
  | nil => exact h
  | cons b bs ih => exact ih (Memory.wf_write h a b) (a + 1)

/-- Consecutive bytes leave every address outside them alone. -/
theorem Memory.read_writeBytes_outside (m : Memory) (a : Nat) (bs : List Byte) (x : Nat)
    (h : x < a ∨ a + bs.length ≤ x) : (m.writeBytes a bs).read x = m.read x := by
  induction bs generalizing m a with
  | nil => rfl
  | cons b bs ih =>
    simp only [List.length_cons] at h
    rw [Memory.writeBytes_cons, ih _ _ (by omega), Memory.read_write_other _ _ (by omega)]

/-- Consecutive bytes are there afterwards. -/
theorem Memory.read_writeBytes_inside (m : Memory) (a : Nat) (bs : List Byte) (i : Nat) (h : i < bs.length) :
    (m.writeBytes a bs).read (a + i) = some bs[i] := by
  induction bs generalizing m a i with
  | nil => simp at h
  | cons b bs ih =>
    cases i with
    | zero => simp [Memory.read_writeBytes_outside]
    | succ i =>
      rw [Memory.writeBytes_cons, show a + (i + 1) = a + 1 + i by omega, ih _ _ _ (by simpa using h)]
      simp

end Sys2Proof.Machine
end

