-- ==== Sys2Proof/Laws/State.lean ====
section
/-! SUPPORT. What each update of the state leaves in each field: one lemma a field, true by rfl. -/

namespace Sys2Proof.Machine

variable (s : State)

/-! ### `State.respond` -/

@[simp] theorem State.respond_cap (code : RespCode) (v0 v1 : Nat) :
    (s.respond code v0 v1).cap = s.cap := rfl
@[simp] theorem State.respond_store (code : RespCode) (v0 v1 : Nat) :
    (s.respond code v0 v1).store = s.store := rfl
@[simp] theorem State.respond_wc (code : RespCode) (v0 v1 : Nat) :
    (s.respond code v0 v1).wc = s.wc := rfl
@[simp] theorem State.respond_rc (code : RespCode) (v0 v1 : Nat) :
    (s.respond code v0 v1).rc = s.rc := rfl
@[simp] theorem State.respond_dec (code : RespCode) (v0 v1 : Nat) :
    (s.respond code v0 v1).dec = s.dec := rfl
@[simp] theorem State.respond_line (code : RespCode) (v0 v1 : Nat) :
    (s.respond code v0 v1).line = s.line := rfl
@[simp] theorem State.respond_src (code : RespCode) (v0 v1 : Nat) :
    (s.respond code v0 v1).src = s.src := rfl
@[simp] theorem State.respond_dst (code : RespCode) (v0 v1 : Nat) :
    (s.respond code v0 v1).dst = s.dst := rfl
@[simp] theorem State.respond_hostMem (code : RespCode) (v0 v1 : Nat) :
    (s.respond code v0 v1).hostMem = s.hostMem := rfl
@[simp] theorem State.respond_pending (code : RespCode) (v0 v1 : Nat) :
    (s.respond code v0 v1).pending = s.pending := rfl
@[simp] theorem State.respond_out (code : RespCode) (v0 v1 : Nat) :
    (s.respond code v0 v1).out = .response (Response.of code v0 v1) := rfl
@[simp] theorem State.respond_epoch (code : RespCode) (v0 v1 : Nat) :
    (s.respond code v0 v1).epoch = s.epoch := rfl

/-! ### `State.advanceRead` -/

@[simp] theorem State.advanceRead_cap (adv : Nat) :
    (s.advanceRead adv).cap = s.cap := rfl
@[simp] theorem State.advanceRead_store (adv : Nat) :
    (s.advanceRead adv).store = s.store := rfl
@[simp] theorem State.advanceRead_wc (adv : Nat) :
    (s.advanceRead adv).wc = s.wc := rfl
@[simp] theorem State.advanceRead_rc (adv : Nat) :
    (s.advanceRead adv).rc = (s.rc + adv) % s.cap := rfl
@[simp] theorem State.advanceRead_dec (adv : Nat) :
    (s.advanceRead adv).dec = s.dec := rfl
@[simp] theorem State.advanceRead_line (adv : Nat) :
    (s.advanceRead adv).line = s.line := rfl
@[simp] theorem State.advanceRead_src (adv : Nat) :
    (s.advanceRead adv).src = s.src := rfl
@[simp] theorem State.advanceRead_dst (adv : Nat) :
    (s.advanceRead adv).dst = s.dst := rfl
@[simp] theorem State.advanceRead_hostMem (adv : Nat) :
    (s.advanceRead adv).hostMem = s.hostMem := rfl
@[simp] theorem State.advanceRead_pending (adv : Nat) :
    (s.advanceRead adv).pending = s.pending := rfl
@[simp] theorem State.advanceRead_out (adv : Nat) :
    (s.advanceRead adv).out = s.out := rfl
@[simp] theorem State.advanceRead_epoch (adv : Nat) :
    (s.advanceRead adv).epoch = s.epoch := rfl

/-! ### `State.withStep` -/

@[simp] theorem State.withStep_cap (d : Decoder) (m : Memory) :
    (s.withStep d m).cap = s.cap := rfl
@[simp] theorem State.withStep_store (d : Decoder) (m : Memory) :
    (s.withStep d m).store = s.store := rfl
@[simp] theorem State.withStep_wc (d : Decoder) (m : Memory) :
    (s.withStep d m).wc = s.wc := rfl
@[simp] theorem State.withStep_rc (d : Decoder) (m : Memory) :
    (s.withStep d m).rc = s.rc := rfl
@[simp] theorem State.withStep_dec (d : Decoder) (m : Memory) :
    (s.withStep d m).dec = d := rfl
@[simp] theorem State.withStep_line (d : Decoder) (m : Memory) :
    (s.withStep d m).line = s.line := rfl
@[simp] theorem State.withStep_src (d : Decoder) (m : Memory) :
    (s.withStep d m).src = s.src := rfl
@[simp] theorem State.withStep_dst (d : Decoder) (m : Memory) :
    (s.withStep d m).dst = s.dst := rfl
@[simp] theorem State.withStep_hostMem (d : Decoder) (m : Memory) :
    (s.withStep d m).hostMem = m := rfl
@[simp] theorem State.withStep_pending (d : Decoder) (m : Memory) :
    (s.withStep d m).pending = s.pending := rfl
@[simp] theorem State.withStep_out (d : Decoder) (m : Memory) :
    (s.withStep d m).out = s.out := rfl
@[simp] theorem State.withStep_epoch (d : Decoder) (m : Memory) :
    (s.withStep d m).epoch = s.epoch := rfl

/-! ### `State.afterRow` -/

@[simp] theorem State.afterRow_cap (r : Stepped) :
    (s.afterRow r).cap = s.cap := rfl
@[simp] theorem State.afterRow_store (r : Stepped) :
    (s.afterRow r).store = s.store := rfl
@[simp] theorem State.afterRow_wc (r : Stepped) :
    (s.afterRow r).wc = s.wc := rfl
@[simp] theorem State.afterRow_rc (r : Stepped) :
    (s.afterRow r).rc = s.rc := rfl
@[simp] theorem State.afterRow_dec (r : Stepped) :
    (s.afterRow r).dec = r.dec := rfl
@[simp] theorem State.afterRow_line (r : Stepped) :
    (s.afterRow r).line = s.line := rfl
@[simp] theorem State.afterRow_src (r : Stepped) :
    (s.afterRow r).src = s.src := rfl
@[simp] theorem State.afterRow_dst (r : Stepped) :
    (s.afterRow r).dst = s.dst := rfl
@[simp] theorem State.afterRow_hostMem (r : Stepped) :
    (s.afterRow r).hostMem = r.mem := rfl
@[simp] theorem State.afterRow_pending (r : Stepped) :
    (s.afterRow r).pending = s.pending := rfl
@[simp] theorem State.afterRow_out (r : Stepped) :
    (s.afterRow r).out = .result r.result := rfl
@[simp] theorem State.afterRow_epoch (r : Stepped) :
    (s.afterRow r).epoch = s.epoch := rfl

/-! ### `State.accept` -/

@[simp] theorem State.accept_cap (rest : List HostEvent) (src : SrcRegion) (dst : DstRegion) :
    (s.accept rest src dst).cap = s.cap := rfl
@[simp] theorem State.accept_store (rest : List HostEvent) (src : SrcRegion) (dst : DstRegion) :
    (s.accept rest src dst).store = s.store := rfl
@[simp] theorem State.accept_wc (rest : List HostEvent) (src : SrcRegion) (dst : DstRegion) :
    (s.accept rest src dst).wc = s.wc := rfl
@[simp] theorem State.accept_rc (rest : List HostEvent) (src : SrcRegion) (dst : DstRegion) :
    (s.accept rest src dst).rc = s.rc := rfl
@[simp] theorem State.accept_dec (rest : List HostEvent) (src : SrcRegion) (dst : DstRegion) :
    (s.accept rest src dst).dec = s.dec := rfl
@[simp] theorem State.accept_line (rest : List HostEvent) (src : SrcRegion) (dst : DstRegion) :
    (s.accept rest src dst).line = s.line := rfl
@[simp] theorem State.accept_src (rest : List HostEvent) (src : SrcRegion) (dst : DstRegion) :
    (s.accept rest src dst).src = src := rfl
@[simp] theorem State.accept_dst (rest : List HostEvent) (src : SrcRegion) (dst : DstRegion) :
    (s.accept rest src dst).dst = dst := rfl
@[simp] theorem State.accept_hostMem (rest : List HostEvent) (src : SrcRegion) (dst : DstRegion) :
    (s.accept rest src dst).hostMem = s.hostMem := rfl
@[simp] theorem State.accept_pending (rest : List HostEvent) (src : SrcRegion) (dst : DstRegion) :
    (s.accept rest src dst).pending = rest := rfl
@[simp] theorem State.accept_out (rest : List HostEvent) (src : SrcRegion) (dst : DstRegion) :
    (s.accept rest src dst).out = .nothing := rfl
@[simp] theorem State.accept_epoch (rest : List HostEvent) (src : SrcRegion) (dst : DstRegion) :
    (s.accept rest src dst).epoch = s.epoch := rfl

/-! ### `State.assertReset` -/

@[simp] theorem State.assertReset_cap :
    (s.assertReset).cap = s.cap := rfl
@[simp] theorem State.assertReset_store :
    (s.assertReset).store = [] := rfl
@[simp] theorem State.assertReset_wc :
    (s.assertReset).wc = 0 := rfl
@[simp] theorem State.assertReset_rc :
    (s.assertReset).rc = 0 := rfl
@[simp] theorem State.assertReset_dec :
    (s.assertReset).dec = freshDecoder 0 := rfl
@[simp] theorem State.assertReset_line :
    (s.assertReset).line = .asserted := rfl
@[simp] theorem State.assertReset_src :
    (s.assertReset).src = { base := 0, bytes := [] } := rfl
@[simp] theorem State.assertReset_dst :
    (s.assertReset).dst = { base := 0, cap := 0 } := rfl
@[simp] theorem State.assertReset_hostMem :
    (s.assertReset).hostMem = s.hostMem := rfl
@[simp] theorem State.assertReset_pending :
    (s.assertReset).pending = s.pending := rfl
@[simp] theorem State.assertReset_out :
    (s.assertReset).out = .nothing := rfl
@[simp] theorem State.assertReset_epoch :
    (s.assertReset).epoch = s.epoch + 1 := rfl

/-! ### `State.releaseReset` -/

@[simp] theorem State.releaseReset_cap :
    s.releaseReset.cap = s.cap := rfl
@[simp] theorem State.releaseReset_store :
    s.releaseReset.store = s.store := rfl
@[simp] theorem State.releaseReset_wc :
    s.releaseReset.wc = s.wc := rfl
@[simp] theorem State.releaseReset_rc :
    s.releaseReset.rc = s.rc := rfl
@[simp] theorem State.releaseReset_dec :
    s.releaseReset.dec = s.dec := rfl
@[simp] theorem State.releaseReset_src :
    s.releaseReset.src = s.src := rfl
@[simp] theorem State.releaseReset_dst :
    s.releaseReset.dst = s.dst := rfl
@[simp] theorem State.releaseReset_hostMem :
    s.releaseReset.hostMem = s.hostMem := rfl
@[simp] theorem State.releaseReset_pending :
    s.releaseReset.pending = s.pending := rfl
@[simp] theorem State.releaseReset_out :
    s.releaseReset.out = .nothing := rfl
@[simp] theorem State.releaseReset_epoch :
    s.releaseReset.epoch = s.epoch := rfl

theorem State.releaseReset_line_asserted (h : s.line = .asserted) : s.releaseReset.line = .released := by
  simp [State.releaseReset, h]

/-! ### The reset state -/

@[simp] theorem State.resetWith_cap (n : Nat) :
    (State.resetWith n).cap = n := rfl
@[simp] theorem State.resetWith_store (n : Nat) :
    (State.resetWith n).store = [] := rfl
@[simp] theorem State.resetWith_wc (n : Nat) :
    (State.resetWith n).wc = 0 := rfl
@[simp] theorem State.resetWith_rc (n : Nat) :
    (State.resetWith n).rc = 0 := rfl
@[simp] theorem State.resetWith_dec (n : Nat) :
    (State.resetWith n).dec = freshDecoder 0 := rfl
@[simp] theorem State.resetWith_line (n : Nat) :
    (State.resetWith n).line = .released := rfl
@[simp] theorem State.resetWith_src (n : Nat) :
    (State.resetWith n).src = { base := 0, bytes := [] } := rfl
@[simp] theorem State.resetWith_dst (n : Nat) :
    (State.resetWith n).dst = { base := 0, cap := 0 } := rfl
@[simp] theorem State.resetWith_hostMem (n : Nat) :
    (State.resetWith n).hostMem = [] := rfl
@[simp] theorem State.resetWith_pending (n : Nat) :
    (State.resetWith n).pending = [] := rfl
@[simp] theorem State.resetWith_out (n : Nat) :
    (State.resetWith n).out = .nothing := rfl
@[simp] theorem State.resetWith_epoch (n : Nat) :
    (State.resetWith n).epoch = 0 := rfl

/-! ### What the derived quantities read -/

/-- The unread region depends on the capacity, the storage, the cursors and the reset contents only. -/
theorem State.unread_congr {s t : State} (hcap : t.cap = s.cap) (hstore : t.store = s.store) (hwc : t.wc = s.wc)
    (hrc : t.rc = s.rc) (hepoch : t.epoch = s.epoch) : t.unread = s.unread := by
  simp [State.unread, State.ringBytes, State.storeByte, State.occ, hcap, hstore, hwc, hrc, hepoch]

/-- The occupancy depends on the capacity and the cursors only. -/
theorem State.occ_congr {s t : State} (hcap : t.cap = s.cap) (hwc : t.wc = s.wc) (hrc : t.rc = s.rc) :
    t.occ = s.occ := by
  simp [State.occ, hcap, hwc, hrc]

end Sys2Proof.Machine
end

