-- ==== Sys2Proof/Laws/Cobs.lean ====
section
/-! SUPPORT. The laws of one decoder step: everything `decStep` can do, said once, and what follows from it. -/

namespace Sys2Proof.Machine

/-- A header position (R62). -/
abbrev Decoder.AtHeader (d : Decoder) : Prop := d.ds = .idle ∨ d.dr = 0

/-- A payload position (R62). -/
abbrev Decoder.AtPayload (d : Decoder) : Prop := d.ds ≠ .idle ∧ d.dr ≠ 0

/-- The decoder after a completed or failed session (R94, R95). -/
def Decoder.ended (d : Decoder) : Decoder := { d with ds := .idle, dr := 0, di := 0 }

@[simp] theorem Decoder.ended_ds (d : Decoder) : d.ended.ds = .idle := rfl
@[simp] theorem Decoder.ended_dr (d : Decoder) : d.ended.dr = 0 := rfl
@[simp] theorem Decoder.ended_di (d : Decoder) : d.ended.di = 0 := rfl
@[simp] theorem Decoder.ended_dl (d : Decoder) : d.ended.dl = d.dl := rfl

theorem complete_eq (d : Decoder) (m : Memory) : complete d m = ⟨d.ended, m, .packetComplete d.di⟩ := rfl

theorem fail_eq (k : ErrorKind) (d : Decoder) (m : Memory) : fail k d m = ⟨d.ended, m, .error k⟩ := rfl

/-- A payload byte overflows, or is written and counted. -/
theorem payload_eq (base : Nat) (ds : DecState) (b : Byte) (d : Decoder) (m : Memory) :
    payload base ds b d m =
      if d.di = d.dl then ⟨d.ended, m, .error .destOverflow⟩
      else ⟨{ d with ds := ds, dr := d.dr - 1, di := d.di + 1 }, m.write (base + d.di) b, .emitByte b⟩ := by
  unfold payload emit
  split <;> rename_i h <;> split at h <;> simp_all [fail_eq]
  obtain ⟨rfl, rfl, rfl⟩ := h
  simp

/-- Everything one step can do (R96). -/
theorem decStep_cases (base : Nat) (b : Byte) (d : Decoder) (m : Memory) :
    (d.ds = .idle ∧ b = 0x00 ∧ decStep base b d m = ⟨{ d with ds := .idle, dr := 0 }, m, .noData⟩) ∨
    (d.AtHeader ∧ b = 0xFF ∧ decStep base b d m = ⟨{ d with ds := .grabChain, dr := 254 }, m, .noData⟩) ∨
    (d.AtHeader ∧ otherAtHeader b ∧
      decStep base b d m = ⟨{ d with ds := .grab, dr := b.toNat - 1 }, m, .noData⟩) ∨
    (d.ds ≠ .idle ∧ d.dr = 0 ∧ b = 0x00 ∧ decStep base b d m = ⟨d.ended, m, .packetComplete d.di⟩) ∨
    (d.AtPayload ∧ b = 0x00 ∧ decStep base b d m = ⟨d.ended, m, .error .prematureZero⟩) ∨
    (d.AtPayload ∧ b ≠ 0x00 ∧ d.di = d.dl ∧ decStep base b d m = ⟨d.ended, m, .error .destOverflow⟩) ∨
    (d.AtPayload ∧ b ≠ 0x00 ∧ d.di ≠ d.dl ∧
      decStep base b d m =
        ⟨{ d with dr := d.dr - 1, di := d.di + 1 }, m.write (base + d.di) b, .emitByte b⟩) := by
  obtain ⟨ds, dr, di, dl⟩ := d
  simp only [Decoder.AtHeader, Decoder.AtPayload, otherAtHeader]
  by_cases hz : b = 0#8
  · subst hz
    cases ds <;> by_cases hr : dr = 0 <;>
      simp [decStep, hr, rowT1, rowT4, rowT7, rowT9, rowT12, moveTo, complete_eq, fail_eq]
  · by_cases hf : b = 255#8
    · subst hf
      cases ds <;> by_cases hr : dr = 0 <;> by_cases hi : di = dl <;>
        simp [decStep, hr, hi, rowT2, rowT5, rowT8, rowT10, rowT13, openFull, moveTo, Config.maxRun, payload_eq]
    · cases ds <;> by_cases hr : dr = 0 <;> by_cases hi : di = dl <;>
        simp [decStep, hz, hf, hr, hi, rowT3, rowT6, rowT8, rowT11, rowT13, openShort, moveTo, payload_eq]

/-- A step keeps `DL` (R26). -/
@[simp] theorem decStep_dl (base : Nat) (b : Byte) (d : Decoder) (m : Memory) :
    (decStep base b d m).dec.dl = d.dl := by
  rcases decStep_cases base b d m with ⟨-, -, h⟩ | ⟨-, -, h⟩ | ⟨-, -, h⟩ | ⟨-, -, -, h⟩ | ⟨-, -, h⟩ | ⟨-, -, -, h⟩ |
    ⟨-, -, -, h⟩ <;> rw [h] <;> rfl

/-- What a step does to memory: nothing, or it writes one non-zero byte at `DST[DI]`, below `DL`, and counts it. -/
theorem decStep_mem (base : Nat) (b : Byte) (d : Decoder) (m : Memory) :
    ((decStep base b d m).mem = m) ∨
    (b ≠ 0x00 ∧ d.di ≠ d.dl ∧ (decStep base b d m).mem = m.write (base + d.di) b ∧
      (decStep base b d m).dec.di = d.di + 1 ∧ (decStep base b d m).result = .emitByte b) := by
  rcases decStep_cases base b d m with ⟨-, -, h⟩ | ⟨-, -, h⟩ | ⟨-, -, h⟩ | ⟨-, -, -, h⟩ | ⟨-, -, h⟩ | ⟨-, -, -, h⟩ |
    ⟨-, hb, hi, h⟩ <;> rw [h]
  all_goals first | exact .inl rfl | exact .inr ⟨hb, hi, rfl, rfl, rfl⟩

theorem wf_decStep (base : Nat) (b : Byte) (d : Decoder) {m : Memory} (h : m.wf) : (decStep base b d m).mem.wf := by
  rcases decStep_mem base b d m with e | ⟨-, -, e, -⟩ <;> rw [e]
  exacts [h, Memory.wf_write h _ _]

theorem Decoder.inv_ended {d : Decoder} (h : d.Inv) : d.ended.Inv := ⟨fun _ => rfl, by simp, by simp, h.lengthBound⟩

/-- A fresh session is a good one. -/
theorem inv_freshDecoder {dl : Nat} (h : dl < 2 ^ 24) : (freshDecoder dl).Inv :=
  ⟨fun _ => rfl, by simp [freshDecoder], by simp [freshDecoder], h⟩

/-- Every transition keeps R27. -/
theorem inv_decStep (base : Nat) (b : Byte) {d : Decoder} (m : Memory) (h : d.Inv) : (decStep base b d m).dec.Inv := by
  obtain ⟨h1, h2, h3, h4⟩ := h
  rcases decStep_cases base b d m with ⟨-, -, e⟩ | ⟨-, -, e⟩ | ⟨-, hb, e⟩ | ⟨-, -, -, e⟩ | ⟨-, -, e⟩ | ⟨-, -, -, e⟩ |
    ⟨hp, -, hi, e⟩ <;> rw [e]
  · exact ⟨fun _ => rfl, by simp, h3, h4⟩
  · exact ⟨by simp, by simp, h3, h4⟩
  · refine ⟨by simp, ?_, h3, h4⟩
    have := b.isLt
    simp only; omega
  · exact Decoder.inv_ended ⟨h1, h2, h3, h4⟩
  · exact Decoder.inv_ended ⟨h1, h2, h3, h4⟩
  · exact Decoder.inv_ended ⟨h1, h2, h3, h4⟩
  · exact ⟨fun hd => absurd hd hp.1, by simp only; omega, by simp only; omega, h4⟩

end Sys2Proof.Machine
end

