-- ==== Sys2Proof/Laws/Decode.lean ====
section
/-! SUPPORT. The fields of a word and of a key built from its fields, by the numbers they stand for. -/

namespace Sys2Proof

/-- `word = (ARG << 8) | OPC` as a number (R52). -/
theorem toNat_wordOf (arg : Arg) (opc : Byte) : (wordOf arg opc).toNat = arg.toNat * 256 + opc.toNat := by
  show (arg ++ opc : BitVec (24 + 8)).toNat = _
  rw [BitVec.toNat_append, ← Nat.shiftLeft_add_eq_or_of_lt opc.isLt, Nat.shiftLeft_eq]

/-- `word = (ARG << 8) | OPC` as bits (R52). -/
theorem wordOf_eq_or (arg : Arg) (opc : Byte) : wordOf arg opc = arg.setWidth 32 <<< 8 ||| opc.setWidth 32 := by
  apply BitVec.eq_of_toNat_eq
  have ha := arg.isLt
  have ho := opc.isLt
  rw [toNat_wordOf, BitVec.toNat_or, BitVec.toNat_shiftLeft, BitVec.toNat_setWidth, BitVec.toNat_setWidth,
    Nat.mod_eq_of_lt (a := arg.toNat) (by omega), Nat.mod_eq_of_lt (a := opc.toNat) (by omega), Nat.shiftLeft_eq,
    Nat.mod_eq_of_lt (by omega), ← Nat.shiftLeft_eq, ← Nat.shiftLeft_add_eq_or_of_lt ho, Nat.shiftLeft_eq]

theorem toNat_opcodeOf (w : CmdWord) : (opcodeOf w).toNat = w.toNat % 256 := by
  simp [opcodeOf]

theorem toNat_argOf (w : CmdWord) : (argOf w).toNat = w.toNat / 256 := by
  have := w.isLt
  simp only [argOf, BitVec.extractLsb'_toNat, Nat.shiftRight_eq_div_pow]
  omega

@[simp] theorem opcodeOf_wordOf (arg : Arg) (opc : Byte) : opcodeOf (wordOf arg opc) = opc := by
  apply BitVec.eq_of_toNat_eq
  rw [toNat_opcodeOf, toNat_wordOf]
  have := opc.isLt; omega

@[simp] theorem argOf_wordOf (arg : Arg) (opc : Byte) : argOf (wordOf arg opc) = arg := by
  apply BitVec.eq_of_toNat_eq
  rw [toNat_argOf, toNat_wordOf]
  have := opc.isLt; omega

/-- A word is its two fields (R52). -/
theorem wordOf_fields (w : CmdWord) : wordOf (argOf w) (opcodeOf w) = w := by
  apply BitVec.eq_of_toNat_eq
  rw [toNat_wordOf, toNat_argOf, toNat_opcodeOf]
  omega

/-- `K = (DS << 9) | (P << 8) | b` as a number (R64). -/
theorem toNat_keyOf (ds : BitVec 2) (p : Bool) (b : Byte) :
    (keyOf ds p b).toNat = ds.toNat * 512 + p.toNat * 256 + b.toNat := by
  show ((ds ++ BitVec.ofBool p : BitVec (2 + 1)) ++ b : BitVec (3 + 8)).toNat = _
  rw [BitVec.toNat_append, ← Nat.shiftLeft_add_eq_or_of_lt b.isLt, Nat.shiftLeft_eq, BitVec.toNat_append,
    ← Nat.shiftLeft_add_eq_or_of_lt (BitVec.ofBool p).isLt, Nat.shiftLeft_eq, BitVec.toNat_ofBool]
  omega

theorem toNat_keyState (k : Key) : (keyState k).toNat = k.toNat / 512 := by
  have := k.isLt
  simp only [keyState, BitVec.extractLsb'_toNat, Nat.shiftRight_eq_div_pow]
  omega

theorem toNat_keyByte (k : Key) : (keyByte k).toNat = k.toNat % 256 := by
  simp [keyByte]

theorem keyPositive_eq (k : Key) : keyPositive k = decide (k.toNat / 256 % 2 = 1) := by
  simp [keyPositive, BitVec.getLsbD, Nat.testBit_eq_decide_div_mod_eq]

@[simp] theorem keyState_keyOf (ds : BitVec 2) (p : Bool) (b : Byte) : keyState (keyOf ds p b) = ds := by
  apply BitVec.eq_of_toNat_eq
  rw [toNat_keyState, toNat_keyOf]
  have := b.isLt
  cases p <;> simp only [Bool.toNat_true, Bool.toNat_false] <;> omega

@[simp] theorem keyPositive_keyOf (ds : BitVec 2) (p : Bool) (b : Byte) : keyPositive (keyOf ds p b) = p := by
  rw [keyPositive_eq, toNat_keyOf]
  have := b.isLt
  cases p <;> simp only [Bool.toNat_true, Bool.toNat_false, decide_eq_true_eq, decide_eq_false_iff_not] <;> omega

@[simp] theorem keyByte_keyOf (ds : BitVec 2) (p : Bool) (b : Byte) : keyByte (keyOf ds p b) = b := by
  apply BitVec.eq_of_toNat_eq
  rw [toNat_keyByte, toNat_keyOf]
  have := b.isLt
  cases p <;> simp only [Bool.toNat_true, Bool.toNat_false] <;> omega

end Sys2Proof

namespace Sys2Proof.Machine

/-- A decoder's key selects the row of its state, `DR = 0` and the byte (R64). -/
theorem decodeKey_key (d : Decoder) (b : Byte) :
    decodeKey (d.key b) = .ok (match d.ds with
      | .idle => headerRow b .cobsT1 .cobsT2 .cobsT3
      | .grab => if 0 < d.dr then payloadRow b .cobsT7 .cobsT8 else headerRow b .cobsT4 .cobsT5 .cobsT6
      | .grabChain => if 0 < d.dr then payloadRow b .cobsT12 .cobsT13 else headerRow b .cobsT9 .cobsT10 .cobsT11) := by
  unfold decodeKey
  rw [Decoder.key]
  simp only [keyState_keyOf, keyPositive_keyOf, keyByte_keyOf]
  cases d.ds <;> simp [DecState.code]

end Sys2Proof.Machine
end

