-- ==== Sys2Proof/Laws/Ring.lean ====
section
/-! SUPPORT. The laws of the circular buffer: cursor arithmetic, reading a stretch of the ring, writing one. -/

namespace Sys2Proof.Machine

/-! ## Cursor arithmetic -/

/-- Two steps forward from one offset that land together and are less than a lap apart are the same. -/
theorem ring_inj {n p i j : Nat} (h : (p + i) % n = (p + j) % n) (hij : i ≤ j) (hlap : j < i + n) : i = j := by
  have hmod : i ≡ j [MOD n] := Nat.ModEq.add_left_cancel' p h
  have hdvd : n ∣ j - i := (Nat.modEq_iff_dvd' hij).1 hmod
  have := Nat.eq_zero_of_dvd_of_lt hdvd (by omega)
  omega

theorem fwd_eq {n a b : Nat} (ha : a < n) (hb : b < n) : fwd n a b = if a ≤ b then b - a else n - a + b := by
  simp only [fwd, Nat.mod_eq_of_lt ha]
  split
  · rw [show b + (n - a) = b - a + n by omega, Nat.add_mod_right, Nat.mod_eq_of_lt (by omega)]
  · rw [Nat.mod_eq_of_lt (by omega)]; omega

theorem fwd_lt {n : Nat} (hn : 0 < n) (a b : Nat) : fwd n a b < n := Nat.mod_lt _ hn

/-- Going forward by the distance arrives. -/
theorem add_fwd {n a b : Nat} (ha : a < n) (hb : b < n) : (a + fwd n a b) % n = b := by
  rw [fwd_eq ha hb]
  split
  · rw [show a + (b - a) = b by omega, Nat.mod_eq_of_lt hb]
  · rw [show a + (n - a + b) = b + n by omega, Nat.add_mod_right, Nat.mod_eq_of_lt hb]

/-- The distance to `k` steps forward is `k`, for less than a lap. -/
theorem fwd_add {n a k : Nat} (ha : a < n) (hk : k < n) : fwd n a ((a + k) % n) = k := by
  have hn : 0 < n := by omega
  have harrive := add_fwd ha (Nat.mod_lt (a + k) hn)
  have hlt := fwd_lt hn a ((a + k) % n)
  rcases Nat.le_total (fwd n a ((a + k) % n)) k with h | h
  · exact ring_inj harrive h (by omega)
  · exact (ring_inj harrive.symm h (by omega)).symm

theorem fwd_self {n a : Nat} (ha : a < n) : fwd n a a = 0 := by simp [fwd_eq ha ha]

theorem State.Inv.capPos {s : State} (h : s.Inv) : 0 < s.cap := by have := h.capLow; omega

theorem State.Inv.occ_lt {s : State} (h : s.Inv) : s.occ < s.cap := fwd_lt h.capPos _ _

theorem State.Inv.occ_eq {s : State} (h : s.Inv) :
    s.occ = if s.rc ≤ s.wc then s.wc - s.rc else s.cap - s.rc + s.wc := fwd_eq h.rcBound h.wcBound

/-- The unread region ends at the write cursor. -/
theorem State.Inv.rc_add_occ {s : State} (h : s.Inv) : (s.rc + s.occ) % s.cap = s.wc :=
  add_fwd h.rcBound h.wcBound

theorem State.Inv.occ_eq_zero {s : State} (h : s.Inv) : s.occ = 0 ↔ s.rc = s.wc := by
  have hw := h.wcBound
  have hr := h.rcBound
  rw [h.occ_eq]
  split <;> omega

theorem State.Inv.occ_add_availWrite {s : State} (h : s.Inv) : s.occ + s.availWrite = s.cap - 1 := by
  have := h.occ_lt
  simp only [State.availWrite]; omega

/-! ## Reading the ring -/

@[simp] theorem State.length_ringBytes (s : State) (start count : Nat) : (s.ringBytes start count).length = count := by
  simp [State.ringBytes]

@[simp] theorem State.length_runBytes (s : State) (start count : Nat) : (s.runBytes start count).length = count := by
  simp [State.runBytes]

@[simp] theorem State.length_unread (s : State) : s.unread.length = s.occ := by simp [State.unread]

@[simp] theorem State.getElem_ringBytes (s : State) (start count i : Nat) (h : i < (s.ringBytes start count).length) :
    (s.ringBytes start count)[i] = s.storeByte ((start + i) % s.cap) := by simp [State.ringBytes]

@[simp] theorem State.getElem_unread (s : State) (i : Nat) (h : i < s.unread.length) :
    s.unread[i] = s.storeByte ((s.rc + i) % s.cap) := by simp [State.unread]

/-- A stretch of the ring is its first part and the stretch that starts where that ends. -/
theorem State.ringBytes_add (s : State) (start a b : Nat) :
    s.ringBytes start (a + b) = s.ringBytes start a ++ s.ringBytes ((start + a) % s.cap) b := by
  simp only [State.ringBytes, List.range_add, List.map_append, List.map_map]
  congr 1
  refine List.map_congr_left fun i _ => ?_
  simp [Nat.add_assoc]

theorem State.ringBytes_take (s : State) (start : Nat) {a b : Nat} (h : a ≤ b) :
    (s.ringBytes start b).take a = s.ringBytes start a := by
  rw [show b = a + (b - a) by omega, State.ringBytes_add, List.take_left' (by simp)]

theorem State.ringBytes_drop (s : State) (start : Nat) {a b : Nat} (h : a ≤ b) :
    (s.ringBytes start b).drop a = s.ringBytes ((start + a) % s.cap) (b - a) := by
  conv_lhs => rw [show b = a + (b - a) by omega]
  rw [State.ringBytes_add, List.drop_left' (by simp)]

/-- A stretch that does not cross the physical end is a physical run. -/
theorem State.ringBytes_eq_runBytes (s : State) {start count : Nat} (h : start + count ≤ s.cap) :
    s.ringBytes start count = s.runBytes start count := by
  refine List.map_congr_left fun i hi => ?_
  rw [Nat.mod_eq_of_lt (by have := List.mem_range.1 hi; omega)]

/-- The stored byte of an offset that has an entry. -/
theorem State.storeByte_of_read {s : State} {i : Nat} {b : Byte} (h : s.store.read i = some b) :
    s.storeByte i = b := by simp [State.storeByte, h]

theorem State.storeByte_congr {s t : State} {i : Nat} (hread : t.store.read i = s.store.read i)
    (hepoch : t.epoch = s.epoch) : t.storeByte i = s.storeByte i := by
  simp [State.storeByte, hread, hepoch]

/-! ## The invariant, and moving the read cursor -/

/-- What the invariant of the buffer does not speak of may change. -/
theorem State.Inv.congr {s t : State} (h : s.Inv) (hcap : t.cap = s.cap) (hstore : t.store = s.store) (hwc : t.wc = s.wc)
    (hrc : t.rc = s.rc) (hdec : t.dec.Inv) (hmem : t.hostMem.wf) : t.Inv where
  capLow := hcap ▸ h.capLow
  capHigh := hcap ▸ h.capHigh
  wcBound := by rw [hwc, hcap]; exact h.wcBound
  rcBound := by rw [hrc, hcap]; exact h.rcBound
  decoder := hdec
  storeWf := hstore ▸ h.storeWf
  storeBound := by rw [hstore, hcap]; exact h.storeBound
  unreadWritten := by rw [hstore, hcap, hrc, State.occ_congr hcap hwc hrc]; exact h.unreadWritten
  hostWf := hmem

/-- After the read cursor has moved over `k` unread bytes, that many fewer are unread. -/
theorem State.Inv.occ_advance {s t : State} (h : s.Inv) {k : Nat} (hk : k ≤ s.occ) (hcap : t.cap = s.cap)
    (hwc : t.wc = s.wc) (hrc : t.rc = (s.rc + k) % s.cap) : t.occ = s.occ - k := by
  have hlt := h.occ_lt
  have hfwd := fwd_add (n := s.cap) (a := (s.rc + k) % s.cap) (k := s.occ - k) (Nat.mod_lt _ h.capPos) (by omega)
  rw [Nat.mod_add_mod, show s.rc + k + (s.occ - k) = s.rc + s.occ by omega] at hfwd
  rw [State.occ, hcap, hwc, hrc, ← h.rc_add_occ]
  exact hfwd

/-- Moving the read cursor over unread bytes removes them from the front of the unread region (R22). -/
theorem State.Inv.unread_advance {s t : State} (h : s.Inv) {k : Nat} (hk : k ≤ s.occ) (hcap : t.cap = s.cap)
    (hstore : t.store = s.store) (hwc : t.wc = s.wc) (hrc : t.rc = (s.rc + k) % s.cap) (hepoch : t.epoch = s.epoch) :
    t.unread = s.unread.drop k := by
  rw [State.unread, State.unread, State.ringBytes_drop _ _ hk, h.occ_advance hk hcap hwc hrc, hrc]
  simp [State.ringBytes, State.storeByte, hcap, hstore, hepoch]

/-- Moving the read cursor over unread bytes keeps the invariant. -/
theorem State.Inv.advance {s t : State} (h : s.Inv) {k : Nat} (hk : k ≤ s.occ) (hcap : t.cap = s.cap)
    (hstore : t.store = s.store) (hwc : t.wc = s.wc) (hrc : t.rc = (s.rc + k) % s.cap) (hdec : t.dec.Inv)
    (hmem : t.hostMem.wf) : t.Inv where
  capLow := hcap ▸ h.capLow
  capHigh := hcap ▸ h.capHigh
  wcBound := by rw [hwc, hcap]; exact h.wcBound
  rcBound := by rw [hrc, hcap]; exact Nat.mod_lt _ h.capPos
  decoder := hdec
  storeWf := hstore ▸ h.storeWf
  storeBound := by rw [hstore, hcap]; exact h.storeBound
  unreadWritten := by
    intro i hi
    rw [h.occ_advance hk hcap hwc hrc] at hi
    rw [hstore, hcap, hrc, Nat.mod_add_mod, Nat.add_assoc]
    exact h.unreadWritten _ (by omega)
  hostWf := hmem

/-! ## Writing the ring -/

theorem wf_writeRing (n : Nat) {m : Memory} (h : m.wf) (pos : Nat) (bs : List Byte) : (writeRing n m pos bs).wf := by
  induction bs generalizing m pos with
  | nil => exact h
  | cons b bs ih => exact ih (Memory.wf_write h _ b) (pos + 1)

theorem bound_writeRing {n : Nat} (hn : 0 < n) {m : Memory} (h : ∀ c ∈ m, c.1 < n) (pos : Nat) (bs : List Byte) :
    ∀ c ∈ writeRing n m pos bs, c.1 < n := by
  induction bs generalizing m pos with
  | nil => exact h
  | cons b bs ih =>
    refine ih (fun c hc => ?_) (pos + 1)
    rcases Memory.mem_write hc with rfl | hc
    · exact Nat.mod_lt _ hn
    · exact h c hc

/-- An offset the copy does not visit keeps its byte. -/
theorem read_writeRing_outside (n : Nat) (m : Memory) (pos : Nat) (bs : List Byte) (a : Nat)
    (h : ∀ i < bs.length, (pos + i) % n ≠ a) : (writeRing n m pos bs).read a = m.read a := by
  induction bs generalizing m pos with
  | nil => rfl
  | cons b bs ih =>
    rw [writeRing, ih _ (pos + 1) fun i hi => by
      have := h (i + 1) (by simpa using hi); rwa [show pos + 1 + i = pos + (i + 1) by omega]]
    exact Memory.read_write_other _ _ (by simpa using h 0 (by simp))

/-- An offset holds the last byte the copy put there. -/
theorem read_writeRing_last (n : Nat) (m : Memory) (pos : Nat) (bs : List Byte) (i : Nat) (hi : i < bs.length)
    (h : ∀ j, i < j → j < bs.length → (pos + j) % n ≠ (pos + i) % n) :
    (writeRing n m pos bs).read ((pos + i) % n) = some bs[i] := by
  induction bs generalizing m pos i with
  | nil => simp at hi
  | cons b bs ih =>
    rw [writeRing]
    cases i with
    | zero =>
      rw [read_writeRing_outside _ _ _ _ _ fun j hj => by
        have := h (j + 1) (by omega) (by simpa using hj); rwa [show pos + 1 + j = pos + (j + 1) by omega]]
      simp
    | succ i =>
      have := ih (m.write (pos % n) b) (pos + 1) i (by simpa using hi) fun j hij hj => by
        have := h (j + 1) (by omega) (by simpa using hj)
        rwa [show pos + 1 + j = pos + (j + 1) by omega, show pos + 1 + i = pos + (i + 1) by omega]
      rw [show pos + (i + 1) = pos + 1 + i by omega]
      simpa using this

/-- Every offset the copy visits has an entry afterwards. -/
theorem isSome_writeRing (n : Nat) (m : Memory) (pos : Nat) (bs : List Byte) (a : Nat)
    (h : (m.read a).isSome ∨ ∃ i < bs.length, (pos + i) % n = a) : ((writeRing n m pos bs).read a).isSome := by
  induction bs generalizing m pos with
  | nil => rcases h with h | ⟨i, hi, _⟩; exacts [h, by simp at hi]
  | cons b bs ih =>
    refine ih _ (pos + 1) ?_
    rcases h with h | ⟨i, hi, rfl⟩
    · left; rw [Memory.read_write]; split <;> simp_all
    · cases i with
      | zero => left; simp
      | succ i => right; exact ⟨i, by simpa using hi, by rw [show pos + 1 + i = pos + (i + 1) by omega]⟩

end Sys2Proof.Machine
end

