-- ==== Sys2Proof/Laws/Feed.lean ====
section
/-! SUPPORT. The laws of feeding a session: splitting the bytes, what is counted, what is written, and the runs of the
ring as one sequence. -/

namespace Sys2Proof.Machine

@[simp] theorem feed_nil (base : Nat) (d : Decoder) (m : Memory) (n : Nat) :
    feed base d m n [] = ⟨d, m, .exhausted, n⟩ := rfl

/-- Feeding a first byte: stop there, or go on with the rest. -/
theorem feed_cons (base : Nat) (d : Decoder) (m : Memory) (n : Nat) (b : Byte) (bs : List Byte) :
    feed base d m n (b :: bs) =
      match (decStep base b d m).result with
      | .noData => feed base (decStep base b d m).dec (decStep base b d m).mem (n + 1) bs
      | .emitByte _ => feed base (decStep base b d m).dec (decStep base b d m).mem (n + 1) bs
      | .packetComplete l => ⟨(decStep base b d m).dec, (decStep base b d m).mem, .complete l, n + 1⟩
      | .error k => ⟨(decStep base b d m).dec, (decStep base b d m).mem, .error k, n⟩ := by
  rw [feed]
  rcases decStep base b d m with ⟨d', m', _ | _ | _ | _⟩ <;> rfl

/-- What was fed before is only added to the count. -/
theorem feed_shift (base : Nat) (d : Decoder) (m : Memory) (n k : Nat) (bs : List Byte) :
    feed base d m (n + k) bs = { feed base d m n bs with consumed := (feed base d m n bs).consumed + k } := by
  induction bs generalizing d m n with
  | nil => rfl
  | cons b bs ih =>
    simp only [feed_cons]
    rcases (decStep base b d m).result with _ | _ | _ | _
    · simp only; rw [show n + k + 1 = n + 1 + k by omega, ih]
    · simp only; rw [show n + k + 1 = n + 1 + k by omega, ih]
    · simp only [Fed.mk.injEq, true_and]; omega
    · rfl

/-- Feeding two sequences: stop in the first, or go on with the second (R106, R107). -/
theorem feed_append (base : Nat) (d : Decoder) (m : Memory) (n : Nat) (xs ys : List Byte) :
    feed base d m n (xs ++ ys) =
      match (feed base d m n xs).stop with
      | .exhausted => feed base (feed base d m n xs).dec (feed base d m n xs).mem (feed base d m n xs).consumed ys
      | .complete _ => feed base d m n xs
      | .error _ => feed base d m n xs := by
  induction xs generalizing d m n with
  | nil => rfl
  | cons b xs ih =>
    rw [List.cons_append]
    simp only [feed_cons]
    rcases (decStep base b d m).result with _ | _ | _ | _
    · exact ih _ _ _
    · exact ih _ _ _
    · rfl
    · rfl

/-- An exhausted feed has consumed every byte. -/
theorem feed_consumed_of_exhausted {base : Nat} {d : Decoder} {m : Memory} {n : Nat} {bs : List Byte}
    (h : (feed base d m n bs).stop = .exhausted) : (feed base d m n bs).consumed = n + bs.length := by
  induction bs generalizing d m n with
  | nil => rfl
  | cons b bs ih =>
    rw [feed_cons] at h ⊢
    rcases hr : (decStep base b d m).result with _ | _ | _ | _ <;> rw [hr] at h <;> simp only [reduceCtorEq] at h ⊢
    · rw [ih h, List.length_cons]; omega
    · rw [ih h, List.length_cons]; omega

theorem feed_consumed_le (base : Nat) (d : Decoder) (m : Memory) (n : Nat) (bs : List Byte) :
    (feed base d m n bs).consumed ≤ n + bs.length := by
  induction bs generalizing d m n with
  | nil => simp
  | cons b bs ih =>
    rw [feed_cons, List.length_cons]
    rcases (decStep base b d m).result with _ | _ | _ | _ <;> simp only
    · exact (ih _ _ _).trans (by omega)
    · exact (ih _ _ _).trans (by omega)
    · omega
    · omega

@[simp] theorem feed_dl (base : Nat) (d : Decoder) (m : Memory) (n : Nat) (bs : List Byte) :
    (feed base d m n bs).dec.dl = d.dl := by
  induction bs generalizing d m n with
  | nil => rfl
  | cons b bs ih =>
    rw [feed_cons]
    rcases (decStep base b d m).result with _ | _ | _ | _ <;> simp [ih]

theorem inv_feed (base : Nat) {d : Decoder} (m : Memory) (n : Nat) (bs : List Byte) (h : d.Inv) :
    (feed base d m n bs).dec.Inv := by
  induction bs generalizing d m n with
  | nil => exact h
  | cons b bs ih =>
    have hs := inv_decStep base b m h
    rw [feed_cons]
    rcases (decStep base b d m).result with _ | _ | _ | _
    exacts [ih _ _ hs, ih _ _ hs, hs, hs]

theorem wf_feed (base : Nat) (d : Decoder) {m : Memory} (n : Nat) (bs : List Byte) (h : m.wf) :
    (feed base d m n bs).mem.wf := by
  induction bs generalizing d m n with
  | nil => exact h
  | cons b bs ih =>
    have hs := wf_decStep base b d h
    rw [feed_cons]
    rcases (decStep base b d m).result with _ | _ | _ | _
    exacts [ih _ _ hs, ih _ _ hs, hs, hs]

/-- Feeding leaves host memory outside `DST[0..DL-1]` alone (R38, R93). -/
theorem read_feed_outside (base : Nat) {d : Decoder} (m : Memory) (n : Nat) (bs : List Byte) (h : d.Inv) (a : Nat)
    (ha : a < base ∨ base + d.dl ≤ a) : (feed base d m n bs).mem.read a = m.read a := by
  induction bs generalizing d m n with
  | nil => rfl
  | cons b bs ih =>
    have hs := inv_decStep base b m h
    have hm : (decStep base b d m).mem.read a = m.read a := by
      rcases decStep_mem base b d m with e | ⟨-, hi, e, -⟩ <;> rw [e]
      refine Memory.read_write_other _ _ ?_
      have := h.indexBound; omega
    have ih' := fun n => ih (decStep base b d m).mem n hs (by simpa using ha)
    rw [feed_cons]
    rcases (decStep base b d m).result with _ | _ | _ | _ <;> simp only [ih', hm]

/-- A byte that feeding wrote is not zero (R68). -/
theorem read_feed_ne_zero (base : Nat) (d : Decoder) (m : Memory) (n : Nat) (bs : List Byte) (a : Nat) :
    (feed base d m n bs).mem.read a = m.read a ∨ (feed base d m n bs).mem.read a ≠ some 0x00 := by
  induction bs generalizing d m n with
  | nil => exact .inl rfl
  | cons b bs ih =>
    have hm : (decStep base b d m).mem.read a = m.read a ∨ (decStep base b d m).mem.read a ≠ some 0x00 := by
      rcases decStep_mem base b d m with e | ⟨hb, -, e, -⟩ <;> rw [e]
      · exact .inl rfl
      · rw [Memory.read_write]; split
        · exact .inr (by simpa using hb)
        · exact .inl rfl
    have ih' := fun n => ih (decStep base b d m).dec (decStep base b d m).mem n
    rw [feed_cons]
    rcases (decStep base b d m).result with _ | _ | _ | _ <;> simp only
    · rcases ih' (n + 1) with e | e
      exacts [hm.imp e.trans (e ▸ ·), .inr e]
    · rcases ih' (n + 1) with e | e
      exacts [hm.imp e.trans (e ▸ ·), .inr e]
    · exact hm
    · exact hm

/-- Feeding never uncounts, and a completing byte counts (R100). -/
theorem feed_consumed_ge (base : Nat) (d : Decoder) (m : Memory) (n : Nat) (bs : List Byte) :
    n ≤ (feed base d m n bs).consumed ∧
      ∀ l, (feed base d m n bs).stop = .complete l → n + 1 ≤ (feed base d m n bs).consumed := by
  induction bs generalizing d m n with
  | nil => simp
  | cons b bs ih =>
    have ih' := ih (decStep base b d m).dec (decStep base b d m).mem (n + 1)
    rw [feed_cons]
    rcases (decStep base b d m).result with _ | _ | _ | _ <;> simp only
    · exact ⟨by omega, fun l h => by have := ih'.2 l h; omega⟩
    · exact ⟨by omega, fun l h => by have := ih'.2 l h; omega⟩
    · exact ⟨by omega, fun _ _ => by omega⟩
    · simp

/-- A completed packet is no longer than its slice (R27, R94). -/
theorem feed_length_le {base : Nat} {d : Decoder} {m : Memory} {n : Nat} {bs : List Byte} (h : d.Inv) :
    ∀ l, (feed base d m n bs).stop = .complete l → l ≤ d.dl := by
  induction bs generalizing d m n with
  | nil => simp
  | cons b bs ih =>
    intro l
    have hi := inv_decStep base b m h
    have hd := decStep_dl base b d m
    rw [feed_cons]
    rcases hr : (decStep base b d m).result with _ | _ | _ | _ <;> simp only
    · exact fun he => hd ▸ ih hi l he
    · exact fun he => hd ▸ ih hi l he
    · rintro ⟨⟩
      rcases decStep_cases base b d m with ⟨-, -, e⟩ | ⟨-, -, e⟩ | ⟨-, -, e⟩ | ⟨-, -, -, e⟩ | ⟨-, -, e⟩ | ⟨-, -, -, e⟩ |
        ⟨-, -, -, e⟩ <;> rw [e] at hr <;> simp at hr
      exact hr ▸ h.indexBound
    · simp

/-- Where an error stopped: the bytes before it are exhausted and wrote the same memory, the decoder is fresh, and the
offending byte is zero or not by the kind (R86, R91, R93, R95). -/
theorem feed_error {base : Nat} {d : Decoder} {m : Memory} {n : Nat} {bs : List Byte} {k : ErrorKind}
    (h : (feed base d m n bs).stop = .error k) :
    ∃ i, (feed base d m n bs).consumed = n + i ∧ (feed base d m n bs).dec = d.ended ∧
      (feed base d m n (bs.take i)).stop = .exhausted ∧
      (feed base d m n (bs.take i)).mem = (feed base d m n bs).mem ∧
      ∃ hi : i < bs.length, (k = .prematureZero ∧ bs[i] = 0x00 ∨ k = .destOverflow ∧ bs[i] ≠ 0x00) := by
  induction bs generalizing d m n with
  | nil => simp at h
  | cons b bs ih =>
    rw [feed_cons] at h ⊢
    have hdl : (decStep base b d m).dec.ended = d.ended := by simp [Decoder.ended]
    rcases hr : (decStep base b d m).result with _ | _ | _ | k' <;> rw [hr] at h <;> simp only [reduceCtorEq] at h ⊢
    · obtain ⟨i, h1, h2, h3, h4, h5, h6⟩ := ih h
      refine ⟨i + 1, by omega, h2.trans hdl, ?_, ?_, by simp; omega, by simpa using h6⟩
      · rw [List.take_succ_cons, feed_cons, hr]; exact h3
      · rw [List.take_succ_cons, feed_cons, hr]; exact h4
    · obtain ⟨i, h1, h2, h3, h4, h5, h6⟩ := ih h
      refine ⟨i + 1, by omega, h2.trans hdl, ?_, ?_, by simp; omega, by simpa using h6⟩
      · rw [List.take_succ_cons, feed_cons, hr]; exact h3
      · rw [List.take_succ_cons, feed_cons, hr]; exact h4
    · obtain rfl := FeedStop.error.inj h
      refine ⟨0, rfl, ?_⟩
      rcases decStep_cases base b d m with ⟨-, -, e⟩ | ⟨-, -, e⟩ | ⟨-, -, e⟩ | ⟨-, -, -, e⟩ | ⟨-, hb, e⟩ | ⟨-, hb, -, e⟩ |
        ⟨-, -, -, e⟩ <;> rw [e] at hr <;> simp only [reduceCtorEq, StepResult.error.injEq] at hr
      · exact ⟨by rw [e], rfl, by rw [e]; rfl, by simp, .inl ⟨hr.symm, hb⟩⟩
      · exact ⟨by rw [e], rfl, by rw [e]; rfl, by simp, .inr ⟨hr.symm, hb⟩⟩

/-- Where a packet completed: at a zero byte, the last one counted (R83, R88). -/
theorem feed_complete {base : Nat} {d : Decoder} {m : Memory} {n : Nat} {bs : List Byte} {l : Nat}
    (h : (feed base d m n bs).stop = .complete l) :
    ∃ i, (feed base d m n bs).consumed = n + i + 1 ∧ bs[i]? = some 0x00 := by
  induction bs generalizing d m n with
  | nil => simp at h
  | cons b bs ih =>
    rw [feed_cons] at h ⊢
    rcases hr : (decStep base b d m).result with _ | _ | _ | _ <;> rw [hr] at h <;> simp only [reduceCtorEq] at h ⊢
    · obtain ⟨i, h1, h2⟩ := ih h
      exact ⟨i + 1, by omega, by simpa using h2⟩
    · obtain ⟨i, h1, h2⟩ := ih h
      exact ⟨i + 1, by omega, by simpa using h2⟩
    · refine ⟨0, rfl, ?_⟩
      rcases decStep_cases base b d m with ⟨-, -, e⟩ | ⟨-, -, e⟩ | ⟨-, -, e⟩ | ⟨-, -, hb, e⟩ | ⟨-, -, e⟩ | ⟨-, -, -, e⟩ |
        ⟨-, -, -, e⟩ <;> rw [e] at hr <;> simp at hr
      simp [hb]

/-- A run that fits, with no zero byte, is emitted whole (R87, R92). -/
theorem feed_run (base : Nat) (d : Decoder) (m : Memory) (n : Nat) (run : List Byte) (hds : d.ds ≠ .idle)
    (hr : run.length ≤ d.dr) (hz : ∀ x ∈ run, x ≠ 0x00) (hdi : d.di + run.length ≤ d.dl) :
    feed base d m n run =
      ⟨{ d with dr := d.dr - run.length, di := d.di + run.length }, m.writeBytes (base + d.di) run, .exhausted,
        n + run.length⟩ := by
  induction run generalizing d m n with
  | nil => rfl
  | cons b run ih =>
    simp only [List.length_cons] at hr hdi
    have hb := hz b (by simp)
    have e : decStep base b d m =
        ⟨{ d with dr := d.dr - 1, di := d.di + 1 }, m.write (base + d.di) b, .emitByte b⟩ := by
      rcases decStep_cases base b d m with ⟨h, -⟩ | ⟨h, -⟩ | ⟨h, -⟩ | ⟨-, h, -⟩ | ⟨-, h, -⟩ | ⟨-, -, h, -⟩ | ⟨-, -, -, e⟩
      · exact absurd h hds
      · rcases h with h | h; exacts [absurd h hds, by omega]
      · rcases h with h | h; exacts [absurd h hds, by omega]
      · omega
      · exact absurd h hb
      · omega
      · exact e
    rw [feed_cons, e]
    simp only
    refine (ih _ _ _ (by exact hds) (show _ ≤ d.dr - 1 by omega) (fun x hx => hz x (by simp [hx]))
      (show d.di + 1 + _ ≤ d.dl by omega)).trans ?_
    simp only [Memory.writeBytes_cons, List.length_cons, Fed.mk.injEq, Decoder.mk.injEq, true_and]
    exact ⟨⟨by omega, by omega, trivial⟩, by rw [Nat.add_assoc], by omega⟩

/-- The registers a feed leaves, how it stops and what it counts do not depend on the memory, and a byte of memory is
either written alike or left alone (R107). -/
theorem feed_memory (base : Nat) (d : Decoder) (m m' : Memory) (n : Nat) (bs : List Byte) :
    (feed base d m' n bs).dec = (feed base d m n bs).dec ∧ (feed base d m' n bs).stop = (feed base d m n bs).stop ∧
      (feed base d m' n bs).consumed = (feed base d m n bs).consumed ∧
      ∀ a, (feed base d m' n bs).mem.read a = (feed base d m n bs).mem.read a ∨
        ((feed base d m' n bs).mem.read a = m'.read a ∧ (feed base d m n bs).mem.read a = m.read a) := by
  induction bs generalizing d m m' n with
  | nil => exact ⟨rfl, rfl, rfl, fun a => .inr ⟨rfl, rfl⟩⟩
  | cons b bs ih =>
    have hs : (decStep base b d m').dec = (decStep base b d m).dec ∧
        (decStep base b d m').result = (decStep base b d m).result ∧
        ∀ a, (decStep base b d m').mem.read a = (decStep base b d m).mem.read a ∨
          ((decStep base b d m').mem.read a = m'.read a ∧ (decStep base b d m).mem.read a = m.read a) := by
      obtain ⟨ds, dr, di, dl⟩ := d
      by_cases hz : b = 0#8
      · subst hz
        cases ds <;> by_cases hr : dr = 0 <;>
          simp [decStep, hr, rowT1, rowT4, rowT7, rowT9, rowT12, moveTo, complete_eq, fail_eq]
      · by_cases hf : b = 255#8
        · subst hf
          cases ds <;> by_cases hr : dr = 0 <;> by_cases hi : di = dl <;>
            simp [decStep, hr, hi, rowT2, rowT5, rowT8, rowT10, rowT13, openFull, moveTo, payload_eq, Memory.read_write] <;>
            (intro a; by_cases h : base + di = a <;> simp [h])
        · cases ds <;> by_cases hr : dr = 0 <;> by_cases hi : di = dl <;>
            simp [decStep, hz, hf, hr, hi, rowT3, rowT6, rowT8, rowT11, rowT13, openShort, moveTo, payload_eq,
              Memory.read_write] <;>
            (intro a; by_cases h : base + di = a <;> simp [h])
    have ih' := fun n => ih (decStep base b d m).dec (decStep base b d m).mem (decStep base b d m').mem n
    have later : ∀ {f' f : Fed}, (f'.dec = f.dec ∧ f'.stop = f.stop ∧ f'.consumed = f.consumed ∧
        ∀ a, f'.mem.read a = f.mem.read a ∨ (f'.mem.read a = (decStep base b d m').mem.read a ∧
          f.mem.read a = (decStep base b d m).mem.read a)) →
        f'.dec = f.dec ∧ f'.stop = f.stop ∧ f'.consumed = f.consumed ∧
          ∀ a, f'.mem.read a = f.mem.read a ∨ (f'.mem.read a = m'.read a ∧ f.mem.read a = m.read a) :=
      fun ⟨h1, h2, h3, h4⟩ => ⟨h1, h2, h3, fun a => (h4 a).elim .inl fun ⟨e', e⟩ => by rw [e', e]; exact hs.2.2 a⟩
    rw [feed_cons, feed_cons, hs.1, hs.2.1]
    rcases (decStep base b d m).result with _ | _ | _ | _ <;> simp only
    · exact later (ih' (n + 1))
    · exact later (ih' (n + 1))
    · exact ⟨trivial, trivial, trivial, hs.2.2⟩
    · exact ⟨trivial, trivial, trivial, hs.2.2⟩

/-! ## The runs of the ring -/

/-- Feeding the runs one after the other is feeding their bytes in one sequence (R119, R122). -/
theorem feedRuns_eq_feed (base : Nat) (d : Decoder) (m : Memory) (n : Nat) (runs : List (List Byte)) :
    feedRuns base ⟨d, m, .exhausted, n⟩ runs = feed base d m n runs.flatten := by
  suffices h : ∀ f : Fed, feedRuns base f runs =
      match f.stop with
      | .exhausted => feed base f.dec f.mem f.consumed runs.flatten
      | .complete _ => f
      | .error _ => f from h _
  induction runs with
  | nil => rintro ⟨d, m, _ | _ | _, n⟩ <;> rfl
  | cons run runs ih =>
    rintro ⟨d, m, _ | _ | _, n⟩
    · simp only [feedRuns, ih, List.flatten_cons, feed_append]
    · rfl
    · rfl

/-- The runs, in order, are the unread region (R113). -/
theorem State.Inv.runs_flatten {s : State} (h : s.Inv) (hne : s.rc ≠ s.wc) : s.runs.flatten = s.unread := by
  have hw := h.wcBound
  have hr := h.rcBound
  simp only [State.runs, State.unread]
  rw [h.occ_eq]
  split
  · rw [if_pos (by omega), List.flatten_cons, List.flatten_nil, List.append_nil,
      State.ringBytes_eq_runBytes s (by omega)]
  · rw [if_neg (by omega), State.ringBytes_add, show (s.rc + (s.cap - s.rc)) % s.cap = 0 by
      rw [show s.rc + (s.cap - s.rc) = s.cap by omega, Nat.mod_self],
      State.ringBytes_eq_runBytes s (by omega), State.ringBytes_eq_runBytes s (by omega)]
    simp

end Sys2Proof.Machine
end

