-- ==== Sys2Proof/Laws/Exec.lean ====
section
/-! SUPPORT. When each instruction answers a next state, and which: one lemma a shared operation, one an instruction. -/

namespace Sys2Proof.Machine

/-! ## The operand forms -/

theorem withSrc_eq_next {len : Nat} {s t : State} {body : List Byte → Result} :
    withSrc len s body = .next t ↔ s.src.bytes.length = len ∧ body s.src.bytes = .next t := by
  unfold withSrc; split <;> simp_all

theorem withDst_eq_next {need : Nat} {s t : State} {body : Nat → Result} :
    withDst need s body = .next t ↔ need ≤ s.dst.cap ∧ body s.dst.base = .next t := by
  unfold withDst; split <;> simp_all

/-- The `SRC` and the `DST` at the port share no address (R46). -/
abbrev State.Disjoint (s : State) : Prop :=
  min (s.src.base + s.src.bytes.length) (s.dst.base + s.dst.cap) ≤ max s.src.base s.dst.base

theorem withDisjoint_eq_next {s t : State} {body : Result} :
    withDisjoint s body = .next t ↔ s.Disjoint ∧ body = .next t := by
  unfold withDisjoint State.Disjoint
  split <;> rename_i h
  · simp only [reduceCtorEq, false_iff, not_and]; omega
  · simp only [iff_and_self]; omega

theorem runRow_eq_next {selected : Bool} {r : Stepped} {s t : State} :
    runRow selected r s = .next t ↔ selected ∧ s.afterRow r = t := by
  unfold runRow; split <;> simp_all

/-! ## The commands -/

theorem exec_bufAvailRead (s : State) : exec .bufAvailRead s = .next (s.respond .ok s.occ 0) := rfl

theorem exec_bufAvailWrite (s : State) : exec .bufAvailWrite s = .next (s.respond .ok s.availWrite 0) := rfl

/-- What a `BUF_WRITE` leaves. -/
def State.afterWrite (s : State) (len : Nat) : State :=
  { s with
    store := writeRing s.cap s.store s.wc s.src.bytes
    wc := (s.wc + len) % s.cap
    rc := cursorAfterWrite s.cap s.rc ((s.wc + len) % s.cap) len s.availWrite }.respond .ok len 0

theorem exec_bufWrite {len : Arg} {s t : State} :
    exec (.bufWrite len) s = .next t ↔ s.src.bytes.length = len.toNat ∧ t = s.afterWrite len.toNat := by
  show execBufWrite len s = .next t ↔ _
  rw [execBufWrite, withSrc_eq_next]
  exact and_congr_right fun _ => ⟨fun h => (Host.Outcome.next.inj h).symm, fun h => h ▸ rfl⟩

/-- What a `BUF_READ` of `count` bytes leaves. -/
def State.afterRead (s : State) (count : Nat) : State :=
  ({ s with hostMem := s.hostMem.writeBytes s.dst.base (s.ringBytes s.rc count) }.advanceRead count).respond .ok count 0

theorem exec_bufRead {maxLen : Arg} {s t : State} :
    exec (.bufRead maxLen) s = .next t ↔
      maxLen.toNat ≤ s.dst.cap ∧ t = s.afterRead (min s.occ maxLen.toNat) := by
  show execBufRead maxLen s = .next t ↔ _
  rw [execBufRead, withDst_eq_next]
  exact and_congr_right fun _ => ⟨fun h => (Host.Outcome.next.inj h).symm, fun h => h ▸ rfl⟩

theorem exec_decReset (destLen : Arg) (s : State) :
    exec (.decReset destLen) s = .next ({ s with dec := freshDecoder destLen.toNat }.respond .ok 0 0) := rfl

/-- What a `DEC_FEED` leaves. -/
def State.afterFeed (s : State) (b : Byte) : State :=
  (s.withStep (decStep s.dst.base b s.dec s.hostMem).dec (decStep s.dst.base b s.dec s.hostMem).mem).respondStep
    (decStep s.dst.base b s.dec s.hostMem).result

theorem exec_decFeed {b : Byte} {s t : State} :
    exec (.decFeed b) s = .next t ↔ s.dec.dl ≤ s.dst.cap ∧ t = s.afterFeed b := by
  show execDecFeed b s = .next t ↔ _
  rw [execDecFeed, withDst_eq_next]
  exact and_congr_right fun _ => ⟨fun h => (Host.Outcome.next.inj h).symm, fun h => h ▸ rfl⟩

/-- What a `DEC_PUSH` leaves. -/
def State.afterPush (s : State) : State :=
  (s.withStep (feed s.dst.base s.dec s.hostMem 0 s.src.bytes).dec
    (feed s.dst.base s.dec s.hostMem 0 s.src.bytes).mem).respondPush
    (feed s.dst.base s.dec s.hostMem 0 s.src.bytes).consumed (feed s.dst.base s.dec s.hostMem 0 s.src.bytes).stop

theorem exec_decPush {len : Arg} {s t : State} :
    exec (.decPush len) s = .next t ↔
      s.src.bytes.length = len.toNat ∧ s.dec.dl ≤ s.dst.cap ∧ s.Disjoint ∧ t = s.afterPush := by
  show execDecPush len s = .next t ↔ _
  rw [execDecPush, withSrc_eq_next, withDst_eq_next, withDisjoint_eq_next]
  exact and_congr_right fun _ => and_congr_right fun _ => and_congr_right fun _ =>
    ⟨fun h => (Host.Outcome.next.inj h).symm, fun h => h ▸ rfl⟩

theorem exec_decStatus (s : State) : exec .decStatus s = .next (s.respond .status (statusWord s.dec) s.dec.di) := rfl

/-- The transient session of a `READ_PACKET`, at its end. -/
def State.packetSession (s : State) (destLen : Nat) : Fed :=
  feedRuns s.dst.base (freshFed destLen s.hostMem) s.runs

theorem exec_readPacket {destLen : Arg} {s t : State} :
    exec (.readPacket destLen) s = .next t ↔ destLen.toNat ≤ s.dst.cap ∧
      t = if s.rc = s.wc then s.respond .rpNoBytes 0 0 else s.finishPacket (s.packetSession destLen.toNat) := by
  show execReadPacket destLen s = .next t ↔ _
  rw [execReadPacket, withDst_eq_next]
  refine and_congr_right fun _ => ?_
  split <;> exact ⟨fun h => (Host.Outcome.next.inj h).symm, fun h => h ▸ rfl⟩

/-- The session is one feed of the unread region (R122). -/
theorem State.Inv.packetSession_eq {s : State} (h : s.Inv) (hne : s.rc ≠ s.wc) (destLen : Nat) :
    s.packetSession destLen = feed s.dst.base (freshDecoder destLen) s.hostMem 0 s.unread := by
  rw [State.packetSession, freshFed, feedRuns_eq_feed, h.runs_flatten hne]

/-! ## The rows -/

/-- A row whose key the state and a byte select leaves what the transition function leaves. -/
theorem exec_row {i : Instr} {s t : State} {b : Byte} (hi : i ∈ rowsOnByte b) (h : exec i s = .next t) :
    t = s.afterRow (decStep s.dst.base b s.dec s.hostMem) := by
  unfold rowsOnByte at hi
  split at hi
  · subst_vars
    simp only [List.mem_cons, List.not_mem_nil, or_false] at hi
    rcases hi with rfl | rfl | rfl | rfl | rfl <;>
      simp only [exec, execCobsT1, execCobsT4, execCobsT7, execCobsT9, execCobsT12, runRow_eq_next,
        decide_eq_true_eq] at h <;> obtain ⟨hsel, rfl⟩ := h <;> simp [decStep, hsel] <;>
      rw [if_neg (Nat.ne_of_gt hsel.2)]
  · rename_i hz
    split at hi
    · subst_vars
      simp only [List.mem_cons, List.not_mem_nil, or_false] at hi
      rcases hi with rfl | rfl | rfl | rfl | rfl <;>
        simp only [exec, execCobsT2, execCobsT5, execCobsT8, execCobsT10, execCobsT13, runRow_eq_next,
          withDst_eq_next, decide_eq_true_eq] at h
      · obtain ⟨hsel, rfl⟩ := h; simp [decStep, hsel]
      · obtain ⟨hsel, rfl⟩ := h; simp [decStep, hsel]
      · obtain ⟨-, ⟨hs, hr, -⟩, rfl⟩ := h; simp [decStep, hs, Nat.ne_of_gt hr]
      · obtain ⟨hsel, rfl⟩ := h; simp [decStep, hsel]
      · obtain ⟨-, ⟨hs, hr, -⟩, rfl⟩ := h; simp [decStep, hs, Nat.ne_of_gt hr]
    · rename_i hf
      simp only [List.mem_cons, List.not_mem_nil, or_false] at hi
      rcases hi with rfl | rfl | rfl | rfl | rfl <;>
        simp only [exec, execCobsT3, execCobsT6, execCobsT8, execCobsT11, execCobsT13, runRow_eq_next,
          withDst_eq_next, decide_eq_true_eq] at h
      · obtain ⟨⟨hs, -⟩, rfl⟩ := h; rw [decStep, hs]; simp only; rw [if_neg hz, if_neg hf]
      · obtain ⟨⟨hs, hr, -⟩, rfl⟩ := h; rw [decStep, hs]; simp only; rw [if_pos hr, if_neg hz, if_neg hf]
      · obtain ⟨-, ⟨hs, hr, -⟩, rfl⟩ := h
        rw [decStep, hs]; simp only; rw [if_neg (Nat.ne_of_gt hr), if_neg hz]
      · obtain ⟨⟨hs, hr, -⟩, rfl⟩ := h; rw [decStep, hs]; simp only; rw [if_pos hr, if_neg hz, if_neg hf]
      · obtain ⟨-, ⟨hs, hr, -⟩, rfl⟩ := h
        rw [decStep, hs]; simp only; rw [if_neg (Nat.ne_of_gt hr), if_neg hz]

/-- Every row instruction that completes is a row of some byte. -/
theorem row_byte {i : Instr} {s t : State} (h : exec i s = .next t) :
    (∃ b, i ∈ rowsOnByte b) ∨ i ∈ [Instr.bufAvailRead, .bufAvailWrite, .decStatus] ∨ (∃ a, i = .bufRead a) ∨
      (∃ a, i = .bufWrite a) ∨ (∃ a, i = .decReset a) ∨ (∃ a, i = .decFeed a) ∨ (∃ a, i = .decPush a) ∨
      (∃ a, i = .readPacket a) := by
  have other : ∀ b : Byte, otherAtHeader b → rowsOnByte b = [.cobsT3 b, .cobsT6 b, .cobsT8 b, .cobsT11 b, .cobsT13 b] :=
    fun b hb => by rw [rowsOnByte, if_neg hb.1, if_neg hb.2]
  have pay : ∀ b : Byte, otherAtPayload b → Instr.cobsT8 b ∈ rowsOnByte b ∧ Instr.cobsT13 b ∈ rowsOnByte b :=
    fun b hb => by rw [rowsOnByte, if_neg hb]; split <;> simp
  cases i
  case cobsT3 b =>
    simp only [exec, execCobsT3, runRow_eq_next, decide_eq_true_eq] at h
    exact .inl ⟨b, by simp [other b h.1.2]⟩
  case cobsT6 b =>
    simp only [exec, execCobsT6, runRow_eq_next, decide_eq_true_eq] at h
    exact .inl ⟨b, by simp [other b h.1.2.2]⟩
  case cobsT11 b =>
    simp only [exec, execCobsT11, runRow_eq_next, decide_eq_true_eq] at h
    exact .inl ⟨b, by simp [other b h.1.2.2]⟩
  case cobsT8 b =>
    simp only [exec, execCobsT8, withDst_eq_next, runRow_eq_next, decide_eq_true_eq] at h
    exact .inl ⟨b, (pay b h.2.1.2.2).1⟩
  case cobsT13 b =>
    simp only [exec, execCobsT13, withDst_eq_next, runRow_eq_next, decide_eq_true_eq] at h
    exact .inl ⟨b, (pay b h.2.1.2.2).2⟩
  case cobsT1 => exact .inl ⟨0x00, by decide⟩
  case cobsT4 => exact .inl ⟨0x00, by decide⟩
  case cobsT7 => exact .inl ⟨0x00, by decide⟩
  case cobsT9 => exact .inl ⟨0x00, by decide⟩
  case cobsT12 => exact .inl ⟨0x00, by decide⟩
  case cobsT2 => exact .inl ⟨0xFF, by decide⟩
  case cobsT5 => exact .inl ⟨0xFF, by decide⟩
  case cobsT10 => exact .inl ⟨0xFF, by decide⟩
  all_goals simp

end Sys2Proof.Machine
end

