-- ==== Sys2Proof/Laws/PerInstr.lean ====
section
/-! SUPPORT. Facts of every instruction as syntax, one lemma a constructor. `EncodesAsTableRow`: the encoding of a
well-formed instruction has the fixed bits of its own row of the opcode table. -/

namespace Sys2Proof.Laws.EncodesAsTableRow

open Sys2Proof.Machine

/-- A row of the opcode table with the instruction's mnemonic matches its encoding. -/
def Statement (i : Instr) : Prop :=
  i.WellFormed → ∃ r ∈ opcodeTable, r.mnemonic = mnemonicOf i ∧ r.covers (encode i) = true

/-- A command row that fixes only the opcode matches every word with that opcode. -/
theorem covers_opcode (mn : String) (arg : Arg) (opc : Byte) :
    TableRow.covers ⟨mn, .command, opc.toNat, 0x000000FF⟩ (.word (wordOf arg opc)) = true := by
  have h : (wordOf arg opc).toNat &&& 0xFF = opc.toNat := by
    rw [show (0xFF : Nat) = 2 ^ 8 - 1 from rfl, Nat.and_two_pow_sub_one_eq_mod, toNat_wordOf]
    have := opc.isLt; omega
  simpa [TableRow.covers] using h

theorem bufAvailRead : Statement .bufAvailRead := fun _ =>
  ⟨⟨"BUF_AVAIL_READ", .command, 0x00000001, 0xFFFFFFFF⟩, by decide, rfl, by decide⟩

theorem bufAvailWrite : Statement .bufAvailWrite := fun _ =>
  ⟨⟨"BUF_AVAIL_WRITE", .command, 0x00000002, 0xFFFFFFFF⟩, by decide, rfl, by decide⟩

theorem bufRead (a : Arg) : Statement (.bufRead a) := fun _ =>
  ⟨⟨"BUF_READ", .command, 0x00000003, 0x000000FF⟩, by decide, rfl, covers_opcode _ a 0x00000003⟩

theorem bufWrite (a : Arg) : Statement (.bufWrite a) := fun _ =>
  ⟨⟨"BUF_WRITE", .command, 0x00000004, 0x000000FF⟩, by decide, rfl, covers_opcode _ a 0x00000004⟩

theorem decReset (a : Arg) : Statement (.decReset a) := fun _ =>
  ⟨⟨"DEC_RESET", .command, 0x00000005, 0x000000FF⟩, by decide, rfl, covers_opcode _ a 0x00000005⟩

theorem decFeed (b : Byte) : Statement (.decFeed b) := fun _ =>
  ⟨⟨"DEC_FEED", .command, 0x00000006, 0xFFFF00FF⟩, by decide, rfl, by revert b; decide⟩

theorem decPush (a : Arg) : Statement (.decPush a) := fun _ =>
  ⟨⟨"DEC_PUSH", .command, 0x00000007, 0x000000FF⟩, by decide, rfl, covers_opcode _ a 0x00000007⟩

theorem readPacket (a : Arg) : Statement (.readPacket a) := fun _ =>
  ⟨⟨"READ_PACKET", .command, 0x00000008, 0x000000FF⟩, by decide, rfl, covers_opcode _ a 0x00000008⟩

theorem decStatus : Statement .decStatus := fun _ =>
  ⟨⟨"DEC_STATUS", .command, 0x00000009, 0xFFFFFFFF⟩, by decide, rfl, by decide⟩

theorem cobsT1 : Statement .cobsT1 := fun _ =>
  ⟨⟨"COBS_T1", .cobsByte, 0x000, 0x6FF⟩, by decide, rfl, by decide⟩

theorem cobsT2 : Statement .cobsT2 := fun _ =>
  ⟨⟨"COBS_T2", .cobsByte, 0x0FF, 0x6FF⟩, by decide, rfl, by decide⟩

theorem cobsT3 (b : Byte) : Statement (.cobsT3 b) := fun _ =>
  ⟨⟨"COBS_T3", .cobsByte, 0x000, 0x600⟩, by decide, rfl, by revert b; decide⟩

theorem cobsT4 : Statement .cobsT4 := fun _ =>
  ⟨⟨"COBS_T4", .cobsByte, 0x200, 0x7FF⟩, by decide, rfl, by decide⟩

theorem cobsT5 : Statement .cobsT5 := fun _ =>
  ⟨⟨"COBS_T5", .cobsByte, 0x2FF, 0x7FF⟩, by decide, rfl, by decide⟩

theorem cobsT6 (b : Byte) : Statement (.cobsT6 b) := fun _ =>
  ⟨⟨"COBS_T6", .cobsByte, 0x200, 0x700⟩, by decide, rfl, by revert b; decide⟩

theorem cobsT7 : Statement .cobsT7 := fun _ =>
  ⟨⟨"COBS_T7", .cobsByte, 0x300, 0x7FF⟩, by decide, rfl, by decide⟩

theorem cobsT8 (b : Byte) : Statement (.cobsT8 b) := fun _ =>
  ⟨⟨"COBS_T8", .cobsByte, 0x300, 0x700⟩, by decide, rfl, by revert b; decide⟩

theorem cobsT9 : Statement .cobsT9 := fun _ =>
  ⟨⟨"COBS_T9", .cobsByte, 0x400, 0x7FF⟩, by decide, rfl, by decide⟩

theorem cobsT10 : Statement .cobsT10 := fun _ =>
  ⟨⟨"COBS_T10", .cobsByte, 0x4FF, 0x7FF⟩, by decide, rfl, by decide⟩

theorem cobsT11 (b : Byte) : Statement (.cobsT11 b) := fun _ =>
  ⟨⟨"COBS_T11", .cobsByte, 0x400, 0x700⟩, by decide, rfl, by revert b; decide⟩

theorem cobsT12 : Statement .cobsT12 := fun _ =>
  ⟨⟨"COBS_T12", .cobsByte, 0x500, 0x7FF⟩, by decide, rfl, by decide⟩

theorem cobsT13 (b : Byte) : Statement (.cobsT13 b) := fun _ =>
  ⟨⟨"COBS_T13", .cobsByte, 0x500, 0x700⟩, by decide, rfl, by revert b; decide⟩

end Sys2Proof.Laws.EncodesAsTableRow
end

