-- ==== Sys2Proof/Laws/Step.lean ====
section
/-! SUPPORT. What one step can do, said once, and the state an instruction leaves field by field. -/

namespace Sys2Proof.Machine

/-- Everything a step that answers a next state can have done. -/
theorem step_cases {s t : State} (h : step s = .next t) :
    (s.pending = [] ∧ t = { s with out := .nothing }) ∨
    (∃ rest, s.pending = .assertReset :: rest ∧ t = { s with pending := rest }.assertReset) ∨
    (∃ rest, s.pending = .releaseReset :: rest ∧ t = { s with pending := rest }.releaseReset) ∨
    (∃ r rest i, s.pending = .command r :: rest ∧ s.line = .released ∧ r.overlapping = false ∧
      decode r.word = .ok i ∧ exec i (s.accept rest r.src r.dst) = .next t) ∨
    (∃ b dst rest i, s.pending = .cobsByte b dst :: rest ∧ s.line = .released ∧
      decodeKey (s.dec.key b) = .ok i ∧ exec i (s.accept rest noSrc dst) = .next t) := by
  unfold step fetch at h
  rcases hp : s.pending with _ | ⟨e, rest⟩
  · rw [hp] at h
    exact .inl ⟨rfl, (Host.Outcome.next.inj h).symm⟩
  · rw [hp] at h
    cases e with
    | assertReset => exact .inr (.inl ⟨rest, rfl, (Host.Outcome.next.inj h).symm⟩)
    | releaseReset => exact .inr (.inr (.inl ⟨rest, rfl, (Host.Outcome.next.inj h).symm⟩))
    | command r =>
      cases hl : s.line <;> simp only [hl, whenReleased, reduceCtorEq] at h
      cases ho : r.overlapping <;> simp only [ho, whenSerialized, if_true, Bool.false_eq_true, if_false, reduceCtorEq] at h
      cases hd : decode r.word <;> simp only [hd, fetchDecoded, reduceCtorEq] at h
      exact .inr (.inr (.inr (.inl ⟨r, rest, _, rfl, rfl, ho, hd, h⟩)))
    | cobsByte b dst =>
      cases hl : s.line <;> simp only [hl, whenReleased, reduceCtorEq] at h
      cases hd : decodeKey (s.dec.key b) <;> simp only [hd, fetchDecoded, reduceCtorEq] at h
      exact .inr (.inr (.inr (.inr ⟨b, dst, rest, _, rfl, rfl, hd, h⟩)))

/-- A command at the port runs. -/
theorem step_command {s : State} {r : Request} {rest : List HostEvent} {i : Instr}
    (hp : s.pending = .command r :: rest) (hl : s.line = .released) (ho : r.overlapping = false)
    (hd : decode r.word = .ok i) : step s = exec i (s.accept rest r.src r.dst) := by
  simp [step, fetch, hp, hl, ho, hd, whenReleased, whenSerialized, fetchDecoded]

/-- A byte at the port runs the row it selects. -/
theorem step_cobsByte {s : State} {b : Byte} {dst : DstRegion} {rest : List HostEvent} {i : Instr}
    (hp : s.pending = .cobsByte b dst :: rest) (hl : s.line = .released)
    (hd : decodeKey (s.dec.key b) = .ok i) : step s = exec i (s.accept rest noSrc dst) := by
  simp [step, fetch, hp, hl, hd, whenReleased, fetchDecoded]

/-! ## The response port -/

@[simp] theorem State.respondStep_dec (s : State) (r : StepResult) : (s.respondStep r).dec = s.dec := by cases r <;> rfl
@[simp] theorem State.respondStep_hostMem (s : State) (r : StepResult) :
    (s.respondStep r).hostMem = s.hostMem := by cases r <;> rfl
@[simp] theorem State.respondPush_dec (s : State) (n : Nat) (r : FeedStop) :
    (s.respondPush n r).dec = s.dec := by cases r <;> rfl
@[simp] theorem State.respondPush_hostMem (s : State) (n : Nat) (r : FeedStop) :
    (s.respondPush n r).hostMem = s.hostMem := by cases r <;> rfl
@[simp] theorem State.finishPacket_hostMem (s : State) (f : Fed) : (s.finishPacket f).hostMem = f.mem := by
  unfold State.finishPacket; split <;> rfl

/-- `DEC_FEED`'s response changes only the port. -/
theorem State.respondStep_eq (s : State) (r : StepResult) :
    s.respondStep r = { s with out := (s.respondStep r).out } := by cases r <;> rfl

/-- `DEC_PUSH`'s response changes only the port. -/
theorem State.respondPush_eq (s : State) (n : Nat) (r : FeedStop) :
    s.respondPush n r = { s with out := (s.respondPush n r).out } := by cases r <;> rfl

/-- `READ_PACKET` writes only `RC`, `DST` and the port (R121). -/
theorem State.finishPacket_eq (s : State) (f : Fed) :
    s.finishPacket f =
      { s with rc := (s.finishPacket f).rc, hostMem := f.mem, out := (s.finishPacket f).out } := by
  unfold State.finishPacket; split <;> rfl

/-- A response reports the numbers it was built from, if they fit their fields (R55, R110). -/
theorem reports_respond {s : State} {code c : RespCode} {v0 v1 a b : Nat} (h0 : v0 < 2 ^ 24) (h1 : v1 < 2 ^ 24) :
    Reports (s.respond code v0 v1).out c a b ↔ c = code ∧ a = v0 ∧ b = v1 := by
  have e : ∀ v < 2 ^ 24, (BitVec.ofNat 24 v).toNat = v := fun v hv => by simpa using Nat.mod_eq_of_lt hv
  constructor
  · rintro ⟨r, hr, rfl, rfl, rfl⟩
    obtain rfl := PortOut.response.inj hr
    exact ⟨rfl, e _ h0, e _ h1⟩
  · rintro ⟨rfl, rfl, rfl⟩
    exact ⟨_, rfl, rfl, e _ h0, e _ h1⟩

theorem toNat_argOfLength {n : Nat} (h : n < 2 ^ 24) : (argOfLength n).toNat = n := by
  simpa using Nat.mod_eq_of_lt h

/-- The claims' words for regions that share no address, and the ones the meaning tests (R46). -/
theorem State.regionsApart_iff (s : State) : s.RegionsApart ↔ s.Disjoint := by
  unfold State.RegionsApart State.Disjoint
  constructor
  · intro h
    by_contra hc
    exact h (max s.src.base s.dst.base) (by omega)
  · intro h a; omega

/-- A `DEC_FEED` writes only the decoder, host memory and the port (R99). -/
theorem State.afterFeed_eq (s : State) (b : Byte) :
    s.afterFeed b = { s with
      dec := (decStep s.dst.base b s.dec s.hostMem).dec
      hostMem := (decStep s.dst.base b s.dec s.hostMem).mem
      out := (s.respondStep (decStep s.dst.base b s.dec s.hostMem).result).out } := by
  unfold State.afterFeed; cases (decStep s.dst.base b s.dec s.hostMem).result <;> rfl

/-- A `DEC_PUSH` writes only the decoder, host memory and the port (R100). -/
theorem State.afterPush_eq (s : State) :
    s.afterPush = { s with
      dec := (feed s.dst.base s.dec s.hostMem 0 s.src.bytes).dec
      hostMem := (feed s.dst.base s.dec s.hostMem 0 s.src.bytes).mem
      out := (s.respondPush (feed s.dst.base s.dec s.hostMem 0 s.src.bytes).consumed
        (feed s.dst.base s.dec s.hostMem 0 s.src.bytes).stop).out } := by
  unfold State.afterPush; cases (feed s.dst.base s.dec s.hostMem 0 s.src.bytes).stop <;> rfl

end Sys2Proof.Machine
end

