-- ==== Sys2Proof/Tests/Slice0.lean ====
section
/-! SUPPORT. Tests of single steps against spec/95_test_vectors.md (each names its vector), smoke tests of
well-formedness, and a witness for the hypotheses of every obligation that has some. -/

namespace Sys2Proof.Tests

open Sys2Proof.Machine

/-! ## Looking at one outcome -/

/-- The outcome is a next state with the property. -/
def nextWith (r : Result) (p : State → Bool) : Bool :=
  match r with
  | .next t => p t
  | .fault _ => false
  | .refused _ => false

/-- The outcome is this refusal. -/
def refusedAs (r : Result) (why : Refusal) : Bool :=
  match r with
  | .next _ => false
  | .fault _ => false
  | .refused e => e = why

/-- The outcome is a next state whose port drives this response. -/
def responds (r : Result) (code : RespCode) (v0 v1 : Arg) : Bool :=
  nextWith r fun t => t.out = .response ⟨code, v0, v1⟩

theorem next_of {r : Result} {p : State → Bool} (h : nextWith r p = true) : ∃ t, r = .next t ∧ p t = true := by
  cases r with
  | next t => exact ⟨t, rfl, h⟩
  | fault f => cases h
  | refused e => cases h

theorem reports_of {r : Result} {code : RespCode} {v0 v1 : Arg} (h : responds r code v0 v1 = true) :
    ∃ t, r = .next t ∧ Reports t.out code v0.toNat v1.toNat := by
  obtain ⟨t, ht, hp⟩ := next_of h
  exact ⟨t, ht, _, of_decide_eq_true hp, rfl, rfl, rfl⟩

/-! ## Small states: `N = 8`, `DST` of 8 bytes at 0x100 -/

/-- The bytes `u` are the unread region, from `rc` on. -/
def ring (rc wc : Nat) (u : List Byte) : State :=
  { State.resetWith 8 with rc := rc, wc := wc, store := writeRing 8 [] rc u, dst := ⟨0x100, 8⟩ }

/-- The decoder's registers are these, and `DST` has room for `dl`. -/
def decoding (ds : DecState) (dr di dl : Nat) : State :=
  { State.resetWith 8 with dec := ⟨ds, dr, di, dl⟩, dst := ⟨0x100, dl⟩ }

/-- `SRC` at 0x200 with these bytes. -/
def withBytes (s : State) (bs : List Byte) : State := { s with src := ⟨0x200, bs⟩ }

/-- The first bytes of `DST`. -/
def dstIs (t : State) (bs : List Byte) : Bool :=
  (List.range bs.length).map (fun i => t.hostMem.read (0x100 + i)) = bs.map some

/-! ## Well-formedness: an ill-formed term for each check -/

theorem test_wf_T3_zero : ¬ (Instr.cobsT3 0x00).WellFormed := by decide
theorem test_wf_T3_ff : ¬ (Instr.cobsT3 0xFF).WellFormed := by decide
theorem test_wf_T6_zero : ¬ (Instr.cobsT6 0x00).WellFormed := by decide
theorem test_wf_T6_ff : ¬ (Instr.cobsT6 0xFF).WellFormed := by decide
theorem test_wf_T8_zero : ¬ (Instr.cobsT8 0x00).WellFormed := by decide
theorem test_wf_T11_zero : ¬ (Instr.cobsT11 0x00).WellFormed := by decide
theorem test_wf_T11_ff : ¬ (Instr.cobsT11 0xFF).WellFormed := by decide
theorem test_wf_T13_zero : ¬ (Instr.cobsT13 0x00).WellFormed := by decide
theorem test_wf_payload_ff : (Instr.cobsT8 0xFF).WellFormed ∧ (Instr.cobsT13 0xFF).WellFormed := by decide

/-! ## Decoding: words written out from `(ARG << 8) | OPC` (R52, R53), keys from `(DS << 9) | (P << 8) | b` (R64) -/

theorem test_decode_bufAvailRead : decode 0b00000000_00000000_00000000_00000001 = .ok .bufAvailRead := by decide
theorem test_decode_bufAvailWrite : decode 0b00000000_00000000_00000000_00000010 = .ok .bufAvailWrite := by decide
theorem test_decode_bufRead : decode 0b00000000_00000000_00000101_00000011 = .ok (.bufRead 5) := by decide
theorem test_decode_bufWrite : decode 0b11111111_11111111_11111111_00000100 = .ok (.bufWrite 0xFFFFFF) := by decide
theorem test_decode_decReset : decode 0b00000000_00000000_00010000_00000101 = .ok (.decReset 16) := by decide
theorem test_decode_decFeed : decode 0b00000000_00000000_01000001_00000110 = .ok (.decFeed 0x41) := by decide
theorem test_decode_decPush : decode 0b00000000_00000000_00000011_00000111 = .ok (.decPush 3) := by decide
theorem test_decode_readPacket : decode 0b00000000_00000000_00001000_00001000 = .ok (.readPacket 8) := by decide
theorem test_decode_decStatus : decode 0b00000000_00000000_00000000_00001001 = .ok .decStatus := by decide
theorem test_decode_T1 : decodeKey 0b00_0_00000000 = .ok .cobsT1 := by decide
theorem test_decode_T2 : decodeKey 0b00_0_11111111 = .ok .cobsT2 := by decide
theorem test_decode_T3 : decodeKey 0b00_0_11111110 = .ok (.cobsT3 0xFE) := by decide
theorem test_decode_T4 : decodeKey 0b01_0_00000000 = .ok .cobsT4 := by decide
theorem test_decode_T5 : decodeKey 0b01_0_11111111 = .ok .cobsT5 := by decide
theorem test_decode_T6 : decodeKey 0b01_0_00000011 = .ok (.cobsT6 0x03) := by decide
theorem test_decode_T7 : decodeKey 0b01_1_00000000 = .ok .cobsT7 := by decide
theorem test_decode_T8 : decodeKey 0b01_1_11111111 = .ok (.cobsT8 0xFF) := by decide
theorem test_decode_T9 : decodeKey 0b10_0_00000000 = .ok .cobsT9 := by decide
theorem test_decode_T10 : decodeKey 0b10_0_11111111 = .ok .cobsT10 := by decide
theorem test_decode_T11 : decodeKey 0b10_0_00000010 = .ok (.cobsT11 0x02) := by decide
theorem test_decode_T12 : decodeKey 0b10_1_00000000 = .ok .cobsT12 := by decide
theorem test_decode_T13 : decodeKey 0b10_1_11111111 = .ok (.cobsT13 0xFF) := by decide
theorem test_decode_no_state_3 : decodeKey 0b11_0_00000000 = .error .reservedState := by decide

/-- V-E14 to V-E19: the reserved words, by the name of the refusal. -/
theorem test_decode_reserved :
    decode 0x00000000 = .error (.reservedOpcode 0x00) ∧ decode 0x0000000A = .error (.reservedOpcode 0x0A) ∧
    decode 0x000000FF = .error (.reservedOpcode 0xFF) ∧ decode 0x00000101 = .error (.reservedArgument 0x01 1) ∧
    decode 0x01000009 = .error (.reservedArgument 0x09 0x010000) ∧
    decode 0x00010006 = .error (.reservedArgument 0x06 0x000100) := by decide

/-! ## The commands -/

/-- V-B11. -/
theorem test_bufAvailRead_wrapped :
    responds (exec .bufAvailRead (ring 6 2 [0x0A, 0x0B, 0x0C, 0x0D])) .ok 4 0 = true := by decide

/-- V-B1: `N - 1`, not `N` (conflict C1). -/
theorem test_bufAvailWrite_empty : responds (exec .bufAvailWrite (State.resetWith 8)) .ok 7 0 = true := by decide

/-- V-B11. -/
theorem test_bufAvailWrite_wrapped :
    responds (exec .bufAvailWrite (ring 6 2 [0x0A, 0x0B, 0x0C, 0x0D])) .ok 3 0 = true := by decide

/-- V-B11: the copy crosses the physical end. -/
theorem test_bufRead_wrapped :
    nextWith (exec (.bufRead 3) (ring 6 2 [0x0A, 0x0B, 0x0C, 0x0D])) (fun t =>
      t.out = .response ⟨.ok, 3, 0⟩ ∧ t.rc = 1 ∧ t.wc = 2 ∧ dstIs t [0x0A, 0x0B, 0x0C] ∧
        t.hostMem.read 0x103 = none) = true := by decide

/-- V-B8: nothing is read from an empty buffer, and `DST` is not written. -/
theorem test_bufRead_empty :
    nextWith (exec (.bufRead 4) (ring 0 0 [])) (fun t =>
      t.out = .response ⟨.ok, 0, 0⟩ ∧ t.rc = 0 ∧ t.hostMem = []) = true := by decide

/-- V-B4: an overflow by one. -/
theorem test_bufWrite_overflow :
    nextWith (exec (.bufWrite 7) (withBytes (ring 2 3 [0x43]) [1, 2, 3, 4, 5, 6, 7])) (fun t =>
      t.out = .response ⟨.ok, 7, 0⟩ ∧ t.rc = 3 ∧ t.wc = 2 ∧ t.unread = [1, 2, 3, 4, 5, 6, 7] ∧
        t.store.map Prod.snd = [6, 7, 0x43, 1, 2, 3, 4, 5]) = true := by decide

/-- V-B12: `len = N` on an empty buffer, so one offset is written and then left out. -/
theorem test_bufWrite_len_N :
    nextWith (exec (.bufWrite 8) (withBytes (ring 0 0 []) [1, 2, 3, 4, 5, 6, 7, 8])) (fun t =>
      t.out = .response ⟨.ok, 8, 0⟩ ∧ t.rc = 1 ∧ t.wc = 0 ∧ t.unread = [2, 3, 4, 5, 6, 7, 8]) = true := by decide

/-- V-F4. -/
theorem test_decReset :
    nextWith (exec (.decReset 4) (decoding .grab 1 1 9)) (fun t =>
      t.out = .response ⟨.ok, 0, 0⟩ ∧ t.dec = ⟨.idle, 0, 0, 4⟩) = true := by decide

/-- V-F1, its second command. -/
theorem test_decFeed_emits :
    nextWith (exec (.decFeed 0x41) (decoding .grab 1 0 4)) (fun t =>
      t.out = .response ⟨.emit, 0x41, 0⟩ ∧ t.dec = ⟨.grab, 0, 1, 4⟩ ∧ dstIs t [0x41]) = true := by decide

/-- V-F3: `DL = 0`, so the first payload byte overflows. -/
theorem test_decFeed_overflow :
    nextWith (exec (.decFeed 0x41) (decoding .grab 1 0 0)) (fun t =>
      t.out = .response ⟨.error, 2, 0⟩ ∧ t.dec = ⟨.idle, 0, 0, 0⟩ ∧ t.hostMem = []) = true := by decide

/-- V-D15: a push stops at the first packet. -/
theorem test_decPush_stops :
    nextWith (exec (.decPush 6) (withBytes (decoding .idle 0 0 8) [0x02, 0x41, 0x00, 0x02, 0x42, 0x00])) (fun t =>
      t.out = .response ⟨.pushComplete, 1, 3⟩ ∧ t.dec = ⟨.idle, 0, 0, 8⟩ ∧ dstIs t [0x41]) = true := by decide

/-- V-D2: the offending byte is not counted (conflicts C2, C5). -/
theorem test_decPush_premature_zero :
    nextWith (exec (.decPush 3) (withBytes (decoding .idle 0 0 8) [0x03, 0x41, 0x00])) (fun t =>
      t.out = .response ⟨.pushError, 1, 2⟩ ∧ t.dec = ⟨.idle, 0, 0, 8⟩ ∧ dstIs t [0x41]) = true := by decide

/-- V-R3: a packet across the physical end. -/
theorem test_readPacket_straddles :
    nextWith (exec (.readPacket 8) (ring 6 2 [0x03, 0x41, 0x42, 0x00])) (fun t =>
      t.out = .response ⟨.rpOk, 2, 4⟩ ∧ t.rc = 2 ∧ t.wc = 2 ∧ dstIs t [0x41, 0x42]) = true := by decide

/-- V-R6: the offending byte is the first of the second run. -/
theorem test_readPacket_corrupt :
    nextWith (exec (.readPacket 8) (ring 5 2 [0x04, 0x41, 0x42, 0x00, 0x09])) (fun t =>
      t.out = .response ⟨.rpCorrupt, 1, 3⟩ ∧ t.rc = 0 ∧ dstIs t [0x41, 0x42]) = true := by decide

/-- V-F5. -/
theorem test_decStatus_grabChain :
    responds (exec .decStatus (decoding .grabChain 253 1 4)) .status 0x00FD02 1 = true := by decide

/-- V-D19. -/
theorem test_decStatus_grab : responds (exec .decStatus (decoding .grab 2 2 8)) .status 0x000201 2 = true := by decide

/-! ## The rows (95_test_vectors.md, section 2.3) -/

/-- A row of the table: the state after it and its result. -/
def rowGives (i : Instr) (before after : State) (r : StepResult) : Bool :=
  nextWith (exec i before) fun t => t.out = .result r ∧ t.dec = after.dec

theorem test_T1 : rowGives .cobsT1 (decoding .idle 0 0 8) (decoding .idle 0 0 8) .noData = true := by decide
theorem test_T2 : rowGives .cobsT2 (decoding .idle 0 0 8) (decoding .grabChain 254 0 8) .noData = true := by decide
theorem test_T3 : rowGives (.cobsT3 0xFE) (decoding .idle 0 0 8) (decoding .grab 253 0 8) .noData = true := by decide
theorem test_T3_empty : rowGives (.cobsT3 0x01) (decoding .idle 0 0 8) (decoding .grab 0 0 8) .noData = true := by decide
theorem test_T4 :
    rowGives .cobsT4 (decoding .grab 0 3 8) (decoding .idle 0 0 8) (.packetComplete 3) = true := by decide
theorem test_T5 : rowGives .cobsT5 (decoding .grab 0 2 8) (decoding .grabChain 254 2 8) .noData = true := by decide
theorem test_T6 : rowGives (.cobsT6 0x03) (decoding .grab 0 1 8) (decoding .grab 2 1 8) .noData = true := by decide
theorem test_T7 :
    rowGives .cobsT7 (decoding .grab 1 1 8) (decoding .idle 0 0 8) (.error .prematureZero) = true := by decide
theorem test_T8 :
    rowGives (.cobsT8 0x41) (decoding .grab 2 0 4) (decoding .grab 1 1 4) (.emitByte 0x41) = true := by decide
theorem test_T8_overflow :
    rowGives (.cobsT8 0xFF) (decoding .grab 1 2 2) (decoding .idle 0 0 2) (.error .destOverflow) = true := by decide
theorem test_T9 :
    rowGives .cobsT9 (decoding .grabChain 0 254 300) (decoding .idle 0 0 300) (.packetComplete 254) = true := by decide
theorem test_T10 :
    rowGives .cobsT10 (decoding .grabChain 0 254 300) (decoding .grabChain 254 254 300) .noData = true := by decide
theorem test_T11 :
    rowGives (.cobsT11 0x02) (decoding .grabChain 0 254 300) (decoding .grab 1 254 300) .noData = true := by decide
theorem test_T12 :
    rowGives .cobsT12 (decoding .grabChain 5 249 300) (decoding .idle 0 0 300) (.error .prematureZero) = true := by
  decide
theorem test_T13 :
    rowGives (.cobsT13 0xFF) (decoding .grabChain 254 0 300) (decoding .grabChain 253 1 300) (.emitByte 0xFF) = true := by
  decide
theorem test_T13_overflow :
    rowGives (.cobsT13 0x11) (decoding .grabChain 252 2 2) (decoding .idle 0 0 2) (.error .destOverflow) = true := by
  decide

/-- T8 and T13 write `DST[DI]`. -/
theorem test_rows_write :
    nextWith (exec (.cobsT8 0x41) (decoding .grab 2 0 4)) (dstIs · [0x41]) = true ∧
    nextWith (exec (.cobsT13 0xFF) (decoding .grabChain 254 0 300)) (dstIs · [0xFF]) = true := by decide

/-- A row off its key is refused. -/
theorem test_row_not_selected :
    refusedAs (exec .cobsT4 (decoding .grab 1 0 4)) .rowNotSelected = true ∧
    refusedAs (exec (.cobsT3 0xFF) (decoding .idle 0 0 4)) .rowNotSelected = true := by decide

/-! ## The port and reset -/

/-- Every row of the opcode table, operand bits zero but where a row's class needs them, runs as the first
instruction after reset. -/
theorem test_every_row_runs_first :
    ([(32, 0x01), (32, 0x02), (32, 0x03), (32, 0x04), (32, 0x05), (32, 0x06), (32, 0x07), (32, 0x08), (32, 0x09),
      (16, 0x000), (16, 0x0FF), (16, 0x001), (16, 0x200), (16, 0x2FF), (16, 0x201), (16, 0x300), (16, 0x301),
      (16, 0x400), (16, 0x4FF), (16, 0x401), (16, 0x500), (16, 0x501)].all fun r =>
        nextWith (step (State.reset.withFetchWord r.1 r.2)) fun t => t.out ≠ .nothing) = true := by decide

/-- R70, R142: a command is served after the reset has been released, not before. -/
theorem test_step_while_asserted :
    refusedAs (step ({ State.reset with line := .asserted }.withFetchWord 32 0x00000001)) .resetAsserted = false ∧
    refusedAs (step { State.reset with
      line := .asserted, pending := [.command ⟨0x00000001, ⟨0, []⟩, ⟨0, 0⟩, false⟩] }) .resetAsserted = true := by decide

/-- 93_implementation_defined.md, U2: a reserved word has no transition. -/
theorem test_step_reserved :
    refusedAs (step { State.reset with pending := [.command ⟨0x00000101, ⟨0, []⟩, ⟨0, 0⟩, false⟩] })
      (.reserved (.reservedArgument 0x01 1)) = true := by decide

/-- R141: reset clears the registers and leaves host memory alone. -/
theorem test_step_assertReset :
    nextWith (step { ring 6 2 [1, 2, 3, 4] with
      dec := ⟨.grab, 1, 1, 4⟩, hostMem := [(0x100, 0x41)], pending := [.assertReset] }) (fun t =>
      t.rc = 0 ∧ t.wc = 0 ∧ t.dec = ⟨.idle, 0, 0, 0⟩ ∧ t.hostMem = [(0x100, 0x41)] ∧ t.line = .asserted) = true := by
  decide

theorem test_reset_memory_wf : State.reset.store.wf ∧ State.reset.hostMem.wf := by decide

/-- A write keeps addresses rising and replaces the byte of an address it has. -/
theorem test_memory_write :
    Memory.write [(1, 0x0A), (3, 0x0B)] 2 0x0C = [(1, 0x0A), (2, 0x0C), (3, 0x0B)] ∧
    Memory.write [(1, 0x0A), (3, 0x0B)] 3 0x0C = [(1, 0x0A), (3, 0x0C)] := by decide

/-! ## Witnesses: for every obligation with hypotheses, concrete states and operands that meet all of them -/

/-- The invariant of a concrete state, clause by clause. -/
theorem inv_of {s : State}
    (h : (2 ≤ s.cap ∧ s.cap ≤ 2 ^ 24 ∧ s.wc < s.cap ∧ s.rc < s.cap) ∧
      ((s.dec.ds = .idle → s.dec.dr = 0) ∧ s.dec.dr ≤ 254 ∧ s.dec.di ≤ s.dec.dl ∧ s.dec.dl < 2 ^ 24) ∧
      s.store.wf ∧ (∀ c ∈ s.store, c.1 < s.cap) ∧
      (∀ k, k < s.occ → (s.store.read ((s.rc + k) % s.cap)).isSome) ∧ s.hostMem.wf) : s.Inv :=
  have ⟨⟨h1, h2, h3, h4⟩, ⟨d1, d2, d3, d4⟩, h5, h6, h7, h8⟩ := h
  ⟨h1, h2, h3, h4, ⟨d1, d2, d3, d4⟩, h5, h6, h7, h8⟩

/-- A buffer that is empty, one that does not wrap, one that does, and a full one. -/
theorem inv_empty : (ring 5 5 []).Inv := inv_of (by decide)
theorem inv_straight : (ring 0 3 [0x02, 0x41, 0x00]).Inv := inv_of (by decide)
theorem inv_wrapped : (ring 6 2 [0x03, 0x41, 0x42, 0x00]).Inv := inv_of (by decide)
theorem inv_full : (ring 1 0 [5, 1, 2, 3, 4, 5, 6]).Inv := inv_of (by decide)

/-- The smallest capacity (V-B13). -/
theorem inv_smallest : (State.resetWith 2).Inv := inv_of (by decide)

/-- The greatest capacity. -/
theorem inv_greatest : (State.resetWith 16777216).Inv := inv_of (by decide)

theorem decoder_inv_of {d : Decoder}
    (h : (d.ds = .idle → d.dr = 0) ∧ d.dr ≤ 254 ∧ d.di ≤ d.dl ∧ d.dl < 2 ^ 24) : d.Inv :=
  have ⟨d1, d2, d3, d4⟩ := h
  ⟨d1, d2, d3, d4⟩

/-- A concrete command's `SRC` and `DST` share no address. -/
theorem apart_of {s : State} (h : s.Disjoint) : s.RegionsApart := s.regionsApart_iff.2 h

/-- O1, O2, O3: the three clauses, with a buffer one byte from each boundary. -/
theorem witness_avail :
    ((ring 5 5 []).Inv ∧ (ring 5 5 []).rc = (ring 5 5 []).wc) ∧
    ((ring 0 1 [7]).Inv ∧ (ring 0 1 [7]).rc < (ring 0 1 [7]).wc) ∧
    ((ring 1 0 [5, 1, 2, 3, 4, 5, 6]).Inv ∧ (ring 1 0 [5, 1, 2, 3, 4, 5, 6]).wc < (ring 1 0 [5, 1, 2, 3, 4, 5, 6]).rc) :=
  ⟨⟨inv_of (by decide), by decide⟩, ⟨inv_of (by decide), by decide⟩, ⟨inv_of (by decide), by decide⟩⟩

/-- O4: the longest write that does not overflow, one byte more, and one longer than `N`. -/
theorem witness_BufWriteCopiesIntoRing :
    ((withBytes (ring 6 2 [3, 4, 5, 6]) [7, 8, 9]).Inv ∧
      (withBytes (ring 6 2 [3, 4, 5, 6]) [7, 8, 9]).src.bytes.length = (3 : Arg).toNat) ∧
    ((withBytes (ring 6 2 [3, 4, 5, 6]) [7, 8, 9, 10]).Inv ∧
      (withBytes (ring 6 2 [3, 4, 5, 6]) [7, 8, 9, 10]).src.bytes.length = (4 : Arg).toNat) ∧
    ((withBytes (ring 5 5 []) (List.replicate 20 1)).Inv ∧
      (withBytes (ring 5 5 []) (List.replicate 20 1)).src.bytes.length = (20 : Arg).toNat) :=
  ⟨⟨inv_of (by decide), by decide⟩, ⟨inv_of (by decide), by decide⟩, ⟨inv_of (by decide), by decide⟩⟩

/-- O5: `len` is exactly the free space. -/
theorem witness_FittingWriteLosesNothing :
    (withBytes (ring 6 2 [3, 4, 5, 6]) [7, 8, 9]).Inv ∧
    (withBytes (ring 6 2 [3, 4, 5, 6]) [7, 8, 9]).src.bytes.length = (3 : Arg).toNat ∧
    (3 : Arg).toNat ≤ (withBytes (ring 6 2 [3, 4, 5, 6]) [7, 8, 9]).cap - 1 -
      (withBytes (ring 6 2 [3, 4, 5, 6]) [7, 8, 9]).unread.length :=
  ⟨inv_of (by decide), by decide, by decide⟩

/-- O6: one byte more than the free space. -/
theorem witness_OverflowKeepsNewestBytes :
    (withBytes (ring 6 2 [3, 4, 5, 6]) [7, 8, 9, 10]).Inv ∧
    (withBytes (ring 6 2 [3, 4, 5, 6]) [7, 8, 9, 10]).src.bytes.length = (4 : Arg).toNat ∧
    (withBytes (ring 6 2 [3, 4, 5, 6]) [7, 8, 9, 10]).cap - 1 -
      (withBytes (ring 6 2 [3, 4, 5, 6]) [7, 8, 9, 10]).unread.length < (4 : Arg).toNat :=
  ⟨inv_of (by decide), by decide, by decide⟩

/-- O7, O8: `max_len` is exactly the capacity of `DST`. -/
theorem witness_BufRead :
    (ring 6 2 [3, 4, 5, 6]).Inv ∧ (8 : Arg).toNat ≤ (ring 6 2 [3, 4, 5, 6]).dst.cap ∧
    ∃ t, exec (.bufRead 8) (ring 6 2 [3, 4, 5, 6]) = .next t :=
  ⟨inv_of (by decide), by decide, _, exec_bufRead.2 ⟨by decide, rfl⟩⟩

/-- O9: from an empty buffer, a write of three bytes and a read of two. -/
theorem witness_ReadsAreFirstInFirstOut :
    (ring 5 5 []).Inv ∧ (ring 5 5 []).rc = (ring 5 5 []).wc ∧
    ∃ u, BufRun (ring 5 5 []) [1, 2, 3] [1, 2] u := by
  have hw : exec (.bufWrite 3) (withBytes (ring 5 5 []) [1, 2, 3]) =
      .next ((withBytes (ring 5 5 []) [1, 2, 3]).afterWrite 3) := exec_bufWrite.2 ⟨by decide, rfl⟩
  have hr : exec (.bufRead 2) ((withBytes (ring 5 5 []) [1, 2, 3]).afterWrite 3) =
      .next (((withBytes (ring 5 5 []) [1, 2, 3]).afterWrite 3).afterRead 2) := exec_bufRead.2 ⟨by decide, by decide⟩
  refine ⟨inv_of (by decide), by decide, _, .host ⟨0x200, [1, 2, 3]⟩ ⟨0x100, 8⟩ [] (.write 3 (by decide) hw
    (.read 2 2 [1, 2] hr (by decide) (by decide) ?_ (.done _)))⟩
  unfold Memory.holds; decide

/-- O10. -/
theorem witness_ResetContentsNeverObserved :
    (ring 6 2 [3, 4, 5, 6]).Inv ∧ ∃ t, exec (.bufRead 8) (ring 6 2 [3, 4, 5, 6]) = .next t :=
  ⟨inv_of (by decide), _, exec_bufRead.2 ⟨by decide, rfl⟩⟩

/-- O11, O17: each kind of position, with a `DST` of exactly `DL` bytes. -/
theorem witness_rows_and_feed :
    (decoding .idle 0 0 4).dec.dl ≤ (decoding .idle 0 0 4).dst.cap ∧
    (decoding .grab 0 4 4).dec.dl ≤ (decoding .grab 0 4 4).dst.cap ∧
    (decoding .grabChain 254 0 4).dec.dl ≤ (decoding .grabChain 254 0 4).dst.cap := by decide

/-- O12. -/
theorem witness_StrayZeroRowStaysIdle : (decoding .idle 0 0 4).dec.ds = .idle := by decide

/-- O13: the least and the greatest `b`, in each of the three states. -/
theorem witness_CodeByteRowsOpenRuns :
    (0x01 ≤ (0x01 : Byte).toNat ∧ (0x01 : Byte).toNat ≤ 0xFE ∧ 0x01 ≤ (0xFE : Byte).toNat ∧
      (0xFE : Byte).toNat ≤ 0xFE) ∧
    (decoding .idle 0 0 4).dec.ds = .idle ∧
    ((decoding .grab 0 1 4).dec.ds = .grab ∧ (decoding .grab 0 1 4).dec.dr = 0) ∧
    ((decoding .grabChain 0 1 4).dec.ds = .grabChain ∧ (decoding .grabChain 0 1 4).dec.dr = 0) := by decide

/-- O14. -/
theorem witness_EndRowsCompletePacket :
    ((decoding .grab 0 3 8).dec.dr = 0 ∧ (decoding .grab 0 3 8).dec.ds = .grab) ∧
    ((decoding .grabChain 0 254 300).dec.dr = 0 ∧ (decoding .grabChain 0 254 300).dec.ds = .grabChain) := by decide

/-- O15: one payload byte still owed, and all of them. -/
theorem witness_PrematureZeroRowsFail :
    (0 < (decoding .grab 1 1 8).dec.dr ∧ (decoding .grab 1 1 8).dec.ds = .grab) ∧
    (0 < (decoding .grabChain 254 0 300).dec.dr ∧ (decoding .grabChain 254 0 300).dec.ds = .grabChain) := by decide

/-- O16: the last byte that fits, and the first that does not, in both states. -/
theorem witness_PayloadRowsEmit :
    (0x01 ≤ (0x01 : Byte).toNat ∧ 0 < (decoding .grab 1 1 2).dec.dr ∧
      (decoding .grab 1 1 2).dec.dl ≤ (decoding .grab 1 1 2).dst.cap ∧ (decoding .grab 1 1 2).dec.ds = .grab ∧
      (decoding .grab 1 1 2).dec.di ≠ (decoding .grab 1 1 2).dec.dl) ∧
    (0x01 ≤ (0xFF : Byte).toNat ∧ 0 < (decoding .grabChain 252 2 2).dec.dr ∧
      (decoding .grabChain 252 2 2).dec.dl ≤ (decoding .grabChain 252 2 2).dst.cap ∧
      (decoding .grabChain 252 2 2).dec.ds = .grabChain ∧
      (decoding .grabChain 252 2 2).dec.di = (decoding .grabChain 252 2 2).dec.dl) := by decide

/-- O18: the positions of its seven clauses. -/
theorem witness_DecFeedFollowsTransitionFunction :
    ((decoding .idle 0 0 4).dec.Inv ∧ (decoding .idle 0 0 4).dec.dl ≤ (decoding .idle 0 0 4).dst.cap ∧
      (decoding .idle 0 0 4).dec.ds = .idle) ∧
    ((decoding .grab 0 4 4).dec.Inv ∧ (decoding .grab 0 4 4).dec.dl ≤ (decoding .grab 0 4 4).dst.cap ∧
      (decoding .grab 0 4 4).dec.ds ≠ .idle ∧ (decoding .grab 0 4 4).dec.dr = 0) ∧
    ((decoding .grabChain 254 3 4).dec.Inv ∧
      (decoding .grabChain 254 3 4).dec.dl ≤ (decoding .grabChain 254 3 4).dst.cap ∧
      (decoding .grabChain 254 3 4).dec.ds ≠ .idle ∧ 0 < (decoding .grabChain 254 3 4).dec.dr ∧
      (decoding .grabChain 254 3 4).dec.di ≠ (decoding .grabChain 254 3 4).dec.dl) ∧
    ((decoding .grab 1 4 4).dec.Inv ∧ (decoding .grab 1 4 4).dec.dl ≤ (decoding .grab 1 4 4).dst.cap ∧
      (decoding .grab 1 4 4).dec.ds ≠ .idle ∧ 0 < (decoding .grab 1 4 4).dec.dr ∧
      (decoding .grab 1 4 4).dec.di = (decoding .grab 1 4 4).dec.dl) :=
  ⟨⟨decoder_inv_of (by decide), by decide⟩, ⟨decoder_inv_of (by decide), by decide⟩,
    ⟨decoder_inv_of (by decide), by decide⟩, ⟨decoder_inv_of (by decide), by decide⟩⟩

/-- O20: the greatest `DR`. -/
theorem witness_DecStatusReportsRegisters : (decoding .grabChain 254 0 300).dec.Inv := decoder_inv_of (by decide)

/-- O21: no byte, a byte that completes, one that fails, one that neither completes nor fails. -/
theorem witness_DecPushFeedsByteByByte :
    ((withBytes (decoding .idle 0 0 4) []).dec.Inv ∧
      (withBytes (decoding .idle 0 0 4) []).dec.dl ≤ (withBytes (decoding .idle 0 0 4) []).dst.cap ∧
      (withBytes (decoding .idle 0 0 4) []).RegionsApart ∧
      (withBytes (decoding .idle 0 0 4) []).src.bytes.length < 2 ^ 24 ∧
      (withBytes (decoding .idle 0 0 4) []).src.bytes = []) ∧
    ((withBytes (decoding .grab 0 1 4) [0x00]).dec.Inv ∧
      (withBytes (decoding .grab 0 1 4) [0x00]).dec.dl ≤ (withBytes (decoding .grab 0 1 4) [0x00]).dst.cap ∧
      (withBytes (decoding .grab 0 1 4) [0x00]).RegionsApart ∧
      (withBytes (decoding .grab 0 1 4) [0x00]).src.bytes.length < 2 ^ 24 ∧
      ∃ t, exec (.decFeed 0x00) (withBytes (decoding .grab 0 1 4) [0x00]) = .next t ∧ Reports t.out .complete 1 0) ∧
    ((withBytes (decoding .grab 1 1 4) [0x00, 0x02]).dec.Inv ∧
      (withBytes (decoding .grab 1 1 4) [0x00, 0x02]).dec.dl ≤ (withBytes (decoding .grab 1 1 4) [0x00, 0x02]).dst.cap ∧
      (withBytes (decoding .grab 1 1 4) [0x00, 0x02]).RegionsApart ∧
      (withBytes (decoding .grab 1 1 4) [0x00, 0x02]).src.bytes.length < 2 ^ 24 ∧
      ∃ t, exec (.decFeed 0x00) (withBytes (decoding .grab 1 1 4) [0x00, 0x02]) = .next t ∧ Reports t.out .error 1 0) ∧
    ((withBytes (decoding .idle 0 0 4) [0x02, 0x41]).dec.Inv ∧
      (withBytes (decoding .idle 0 0 4) [0x02, 0x41]).dec.dl ≤ (withBytes (decoding .idle 0 0 4) [0x02, 0x41]).dst.cap ∧
      (withBytes (decoding .idle 0 0 4) [0x02, 0x41]).RegionsApart ∧
      (withBytes (decoding .idle 0 0 4) [0x02, 0x41]).src.bytes.length < 2 ^ 24 ∧
      ∃ t, exec (.decFeed 0x02) (withBytes (decoding .idle 0 0 4) [0x02, 0x41]) = .next t ∧
        Reports t.out .noData 0 0) :=
  ⟨⟨decoder_inv_of (by decide), by decide, apart_of (by decide), by decide, rfl⟩,
    ⟨decoder_inv_of (by decide), by decide, apart_of (by decide), by decide, reports_of (v0 := 1) (v1 := 0) (by decide)⟩,
    ⟨decoder_inv_of (by decide), by decide, apart_of (by decide), by decide, reports_of (v0 := 1) (v1 := 0) (by decide)⟩,
    ⟨decoder_inv_of (by decide), by decide, apart_of (by decide), by decide, reports_of (v0 := 0) (v1 := 0) (by decide)⟩⟩

/-- O22: `SRC` begins where `DST` ends. -/
theorem witness_DecPushStaysInDst :
    ({ decoding .grab 1 0 4 with src := ⟨0x104, [0x41, 0x00]⟩ } : State).dec.Inv ∧
    ({ decoding .grab 1 0 4 with src := ⟨0x104, [0x41, 0x00]⟩ } : State).src.bytes.length = (2 : Arg).toNat ∧
    ({ decoding .grab 1 0 4 with src := ⟨0x104, [0x41, 0x00]⟩ } : State).dec.dl ≤
      ({ decoding .grab 1 0 4 with src := ⟨0x104, [0x41, 0x00]⟩ } : State).dst.cap ∧
    ({ decoding .grab 1 0 4 with src := ⟨0x104, [0x41, 0x00]⟩ } : State).RegionsApart :=
  ⟨decoder_inv_of (by decide), by decide, by decide, apart_of (by decide)⟩

/-- O23 (V-D7). -/
theorem witness_SplittingAPushChangesNothing :
    (withBytes (decoding .idle 0 0 8) ([0x02, 0x41] ++ [0x00])).dec.Inv ∧
    (withBytes (decoding .idle 0 0 8) ([0x02, 0x41] ++ [0x00])).dec.dl ≤
      (withBytes (decoding .idle 0 0 8) ([0x02, 0x41] ++ [0x00])).dst.cap ∧
    (withBytes (decoding .idle 0 0 8) ([0x02, 0x41] ++ [0x00])).RegionsApart ∧
    (withBytes (decoding .idle 0 0 8) ([0x02, 0x41] ++ [0x00])).src.bytes.length < 2 ^ 24 ∧
    ∃ t, exec (.decPush (argOfLength 2)) (withBytes (decoding .idle 0 0 8) [0x02, 0x41]) = .next t ∧
      Reports t.out .pushIncomplete 0 2 :=
  ⟨decoder_inv_of (by decide), by decide, apart_of (by decide), by decide,
    reports_of (v0 := 0) (v1 := 2) (by decide)⟩

/-- O24 (V-D15). -/
theorem witness_BytesAfterAStopHaveNoEffect :
    (withBytes (decoding .idle 0 0 8) ([0x02, 0x41, 0x00] ++ [0x02, 0x42, 0x00])).dec.dl ≤
      (withBytes (decoding .idle 0 0 8) ([0x02, 0x41, 0x00] ++ [0x02, 0x42, 0x00])).dst.cap ∧
    (withBytes (decoding .idle 0 0 8) ([0x02, 0x41, 0x00] ++ [0x02, 0x42, 0x00])).RegionsApart ∧
    (withBytes (decoding .idle 0 0 8) ([0x02, 0x41, 0x00] ++ [0x02, 0x42, 0x00])).src.bytes.length < 2 ^ 24 ∧
    RespCode.pushComplete ≠ .pushIncomplete ∧
    ∃ t, exec (.decPush (argOfLength 3)) (withBytes (decoding .idle 0 0 8) [0x02, 0x41, 0x00]) = .next t ∧
      Reports t.out .pushComplete 1 3 :=
  ⟨by decide, apart_of (by decide), by decide, by decide, reports_of (v0 := 1) (v1 := 3) (by decide)⟩

/-- O25: a short chunk that fits exactly, and a full one. -/
theorem witness_ChunkIsDecodedWhole :
    ((withBytes (decoding .grab 0 1 3) [0x03, 0x41, 0x42]).dec.Inv ∧
      (withBytes (decoding .grab 0 1 3) [0x03, 0x41, 0x42]).dec.dl ≤
        (withBytes (decoding .grab 0 1 3) [0x03, 0x41, 0x42]).dst.cap ∧
      (withBytes (decoding .grab 0 1 3) [0x03, 0x41, 0x42]).RegionsApart ∧
      ((withBytes (decoding .grab 0 1 3) [0x03, 0x41, 0x42]).dec.ds = .idle ∨
        (withBytes (decoding .grab 0 1 3) [0x03, 0x41, 0x42]).dec.dr = 0) ∧ (0x03 : Byte) ≠ 0x00 ∧
      ([0x41, 0x42] : List Byte).length = (if (0x03 : Byte) = 0xFF then 254 else (0x03 : Byte).toNat - 1) ∧
      (∀ x ∈ ([0x41, 0x42] : List Byte), x ≠ 0x00) ∧
      (withBytes (decoding .grab 0 1 3) [0x03, 0x41, 0x42]).dec.di + ([0x41, 0x42] : List Byte).length ≤
        (withBytes (decoding .grab 0 1 3) [0x03, 0x41, 0x42]).dec.dl) ∧
    ((withBytes (decoding .idle 0 0 254) (0xFF :: List.replicate 254 0x11)).dec.Inv ∧
      (withBytes (decoding .idle 0 0 254) (0xFF :: List.replicate 254 0x11)).dec.dl ≤
        (withBytes (decoding .idle 0 0 254) (0xFF :: List.replicate 254 0x11)).dst.cap ∧
      (withBytes (decoding .idle 0 0 254) (0xFF :: List.replicate 254 0x11)).RegionsApart ∧
      (withBytes (decoding .idle 0 0 254) (0xFF :: List.replicate 254 0x11)).dec.ds = .idle ∧
      (0xFF : Byte) ≠ 0x00 ∧
      (List.replicate 254 0x11 : List Byte).length = (if (0xFF : Byte) = 0xFF then 254 else (0xFF : Byte).toNat - 1) ∧
      (∀ x ∈ (List.replicate 254 0x11 : List Byte), x ≠ 0x00) ∧
      (withBytes (decoding .idle 0 0 254) (0xFF :: List.replicate 254 0x11)).dec.di +
          (List.replicate 254 0x11 : List Byte).length ≤
        (withBytes (decoding .idle 0 0 254) (0xFF :: List.replicate 254 0x11)).dec.dl) := by
  refine ⟨⟨decoder_inv_of (by decide), by decide, apart_of (by decide), by decide, by decide, by decide, by decide,
    by decide⟩, decoder_inv_of (by decide), le_rfl, apart_of ?_, rfl, by decide,
    by rw [List.length_replicate, if_pos rfl], fun x hx => ?_, by rw [List.length_replicate]; decide⟩
  · simp only [State.Disjoint, withBytes, decoding]; omega
  · rw [List.eq_of_mem_replicate hx]; decide

/-- O26: the shortest payload, and a multiple of 254 with and without its final chunk. -/
theorem witness_RoundTripOfZeroFreePayloads :
    (([] : List Byte).length ≤ 2 * 254 ∧ cobsEncode [] = [0x01, 0x00] ∧
      (withBytes (decoding .idle 0 0 0) (cobsEncode [])).dec.ds = .idle ∧
      (withBytes (decoding .idle 0 0 0) (cobsEncode [])).dec.dr = 0 ∧
      (withBytes (decoding .idle 0 0 0) (cobsEncode [])).dec.di = 0 ∧
      (withBytes (decoding .idle 0 0 0) (cobsEncode [])).dec.dl ≤
        (withBytes (decoding .idle 0 0 0) (cobsEncode [])).dst.cap ∧
      (withBytes (decoding .idle 0 0 0) (cobsEncode [])).RegionsApart) ∧
    ((List.replicate 254 0x11 : List Byte).length ≤ 2 * 254 ∧ (∀ x ∈ (List.replicate 254 0x11 : List Byte), x ≠ 0x00) ∧
      0 < (List.replicate 254 0x11 : List Byte).length ∧ (List.replicate 254 0x11 : List Byte).length % 254 = 0 ∧
      (withBytes (decoding .idle 0 0 254) (cobsEncodeFull (List.replicate 254 0x11))).dec.ds = .idle ∧
      (withBytes (decoding .idle 0 0 254) (cobsEncodeFull (List.replicate 254 0x11))).dec.dr = 0 ∧
      (withBytes (decoding .idle 0 0 254) (cobsEncodeFull (List.replicate 254 0x11))).dec.di = 0 ∧
      (List.replicate 254 0x11 : List Byte).length ≤
        (withBytes (decoding .idle 0 0 254) (cobsEncodeFull (List.replicate 254 0x11))).dec.dl ∧
      (withBytes (decoding .idle 0 0 254) (cobsEncodeFull (List.replicate 254 0x11))).dec.dl ≤
        (withBytes (decoding .idle 0 0 254) (cobsEncodeFull (List.replicate 254 0x11))).dst.cap ∧
      (withBytes (decoding .idle 0 0 254) (cobsEncodeFull (List.replicate 254 0x11))).RegionsApart) := by
  refine ⟨⟨by decide, by decide, by decide, by decide, by decide, by decide, apart_of (by decide)⟩,
    by rw [List.length_replicate]; decide, fun x hx => ?_, by rw [List.length_replicate]; decide,
    by rw [List.length_replicate], rfl, rfl, rfl, List.length_replicate.le, le_rfl, apart_of ?_⟩
  · rw [List.eq_of_mem_replicate hx]; decide
  · simp only [State.Disjoint, withBytes, decoding]; omega

/-- O28: a fresh state, a byte, a push that completes after two bytes and one that fails after one. -/
theorem witness_FreshSessionsMakeProgress :
    (decoding .idle 0 0 4).dec.ds = .idle ∧ (decoding .idle 0 0 4).dec.dr = 0 ∧ (decoding .idle 0 0 4).dec.di = 0 ∧
    (decoding .idle 0 0 4).dec.dl < 2 ^ 24 ∧
    (∃ t, exec (.decFeed 0x00) (decoding .idle 0 0 4) = .next t ∧ Reports t.out .noData 0 0) ∧
    (∃ t, exec (.decPush 2) (withBytes (decoding .idle 0 0 4) [0x01, 0x00]) = .next t ∧
      Reports t.out .pushComplete 0 2) ∧
    ∃ t, exec (.decPush 2) (withBytes (decoding .idle 0 0 4) [0x02, 0x00]) = .next t ∧ Reports t.out .pushError 1 1 :=
  ⟨by decide, by decide, by decide, by decide, reports_of (v0 := 0) (v1 := 0) (by decide),
    reports_of (v0 := 0) (v1 := 2) (by decide), reports_of (v0 := 1) (v1 := 1) (by decide)⟩

/-- O29. -/
theorem witness_ZerosAloneNeverComplete :
    (withBytes (decoding .idle 0 0 4) (List.replicate 3 0x00)).dec.ds = .idle ∧
    (withBytes (decoding .idle 0 0 4) (List.replicate 3 0x00)).dec.dr = 0 ∧ 3 < 2 ^ 24 ∧
    (withBytes (decoding .idle 0 0 4) (List.replicate 3 0x00)).dec.dl ≤
      (withBytes (decoding .idle 0 0 4) (List.replicate 3 0x00)).dst.cap ∧
    (withBytes (decoding .idle 0 0 4) (List.replicate 3 0x00)).RegionsApart :=
  ⟨by decide, by decide, by decide, by decide, apart_of (by decide)⟩

/-- O27: a `DST` of exactly `DL` bytes. -/
theorem witness_GrabAndGrabChainAlike :
    (decoding .idle 3 1 4).dec.dl ≤ (decoding .idle 3 1 4).dst.cap := by decide

/-- O30 (V-D2). -/
theorem witness_PushErrorsArePrecise :
    (withBytes (decoding .idle 0 0 8) [0x03, 0x41, 0x00]).dec.Inv ∧
    ∃ t, exec (.decPush 3) (withBytes (decoding .idle 0 0 8) [0x03, 0x41, 0x00]) = .next t ∧
      Reports t.out .pushError 1 2 :=
  ⟨decoder_inv_of (by decide), reports_of (v0 := 1) (v1 := 2) (by decide)⟩

/-- O31: a decoded byte that was not there before. -/
theorem witness_DecodedBytesAreNeverZero :
    (∀ n, Instr.readPacket 8 ≠ .bufRead n) ∧
    ∃ t, exec (.readPacket 8) (ring 0 3 [0x02, 0x41, 0x00]) = .next t ∧
      t.hostMem.read 0x100 ≠ (ring 0 3 [0x02, 0x41, 0x00]).hostMem.read 0x100 := by
  obtain ⟨t, ht, hp⟩ := next_of (r := exec (.readPacket 8) (ring 0 3 [0x02, 0x41, 0x00]))
    (p := fun t => t.hostMem.read 0x100 = some 0x41) (by decide)
  exact ⟨nofun, t, ht, by rw [of_decide_eq_true hp]; decide⟩

/-- O32. -/
theorem witness_ReadPacketOnEmptyBuffer :
    (ring 5 5 []).rc = (ring 5 5 []).wc ∧ (8 : Arg).toNat ≤ (ring 5 5 []).dst.cap := by decide

/-- O33, O34: the same unread bytes across the physical end and away from it, `dest_len` the capacity of `DST`. -/
theorem witness_ReadPacketIsLinearDecode :
    (ring 6 2 [0x03, 0x41, 0x42, 0x00]).Inv ∧
    (ring 6 2 [0x03, 0x41, 0x42, 0x00]).rc ≠ (ring 6 2 [0x03, 0x41, 0x42, 0x00]).wc ∧
    (8 : Arg).toNat ≤ (ring 6 2 [0x03, 0x41, 0x42, 0x00]).dst.cap ∧
    (ring 0 4 [0x03, 0x41, 0x42, 0x00]).Inv ∧
    (ring 0 4 [0x03, 0x41, 0x42, 0x00]).unread = (ring 6 2 [0x03, 0x41, 0x42, 0x00]).unread ∧
    (ring 0 4 [0x03, 0x41, 0x42, 0x00]).dst = (ring 6 2 [0x03, 0x41, 0x42, 0x00]).dst ∧
    (ring 0 4 [0x03, 0x41, 0x42, 0x00]).hostMem = (ring 6 2 [0x03, 0x41, 0x42, 0x00]).hostMem ∧
    ∃ t, exec (.readPacket 8) (ring 6 2 [0x03, 0x41, 0x42, 0x00]) = .next t :=
  ⟨inv_of (by decide), by decide, by decide, inv_of (by decide), by decide, rfl, rfl, _,
    exec_readPacket.2 ⟨by decide, rfl⟩⟩

/-- O35, O36, O37, O38: a packet and a corrupt one (V-R2, V-R5); nothing, and part of one (V-R1, V-R4). -/
theorem witness_readPacket_outcomes :
    ((ring 0 3 [0x02, 0x41, 0x00]).Inv ∧
      ∃ t, exec (.readPacket 8) (ring 0 3 [0x02, 0x41, 0x00]) = .next t ∧ Reports t.out .rpOk 1 3) ∧
    ((ring 0 5 [0x03, 0x41, 0x00, 0x02, 0x42]).Inv ∧
      ∃ t, exec (.readPacket 8) (ring 0 5 [0x03, 0x41, 0x00, 0x02, 0x42]) = .next t ∧ Reports t.out .rpCorrupt 1 2) ∧
    ((ring 0 0 []).Inv ∧ ∃ t, exec (.readPacket 8) (ring 0 0 []) = .next t ∧ Reports t.out .rpNoBytes 0 0) ∧
    ((ring 0 3 [0x03, 0x41, 0x42]).Inv ∧
      ∃ t, exec (.readPacket 8) (ring 0 3 [0x03, 0x41, 0x42]) = .next t ∧ Reports t.out .rpIncomplete 0 0) :=
  ⟨⟨inv_of (by decide), reports_of (v0 := 1) (v1 := 3) (by decide)⟩,
    ⟨inv_of (by decide), reports_of (v0 := 1) (v1 := 2) (by decide)⟩,
    ⟨inv_of (by decide), reports_of (v0 := 0) (v1 := 0) (by decide)⟩,
    ⟨inv_of (by decide), reports_of (v0 := 0) (v1 := 0) (by decide)⟩⟩

/-- O39, O40: a poll on part of a packet (V-R4W), then a write that exactly fits. -/
theorem witness_RetryAfterAppendLosesNothing :
    (withBytes (ring 6 1 [0x03, 0x41, 0x42]) [0x00, 0x02, 0x43, 0x00]).Inv ∧
    ∃ t v v' w w', exec (.readPacket 8) (withBytes (ring 6 1 [0x03, 0x41, 0x42]) [0x00, 0x02, 0x43, 0x00]) = .next t ∧
      Reports t.out .rpIncomplete 0 0 ∧
      (4 : Arg).toNat ≤ (withBytes (ring 6 1 [0x03, 0x41, 0x42]) [0x00, 0x02, 0x43, 0x00]).cap - 1 -
        (withBytes (ring 6 1 [0x03, 0x41, 0x42]) [0x00, 0x02, 0x43, 0x00]).unread.length ∧
      exec (.bufWrite 4) t = .next v ∧ exec (.readPacket 8) v = .next w ∧
      exec (.bufWrite 4) (withBytes (ring 6 1 [0x03, 0x41, 0x42]) [0x00, 0x02, 0x43, 0x00]) = .next v' ∧
      exec (.readPacket 8) v' = .next w' := by
  obtain ⟨t, ht, hr⟩ := reports_of (r := exec (.readPacket 8)
    (withBytes (ring 6 1 [0x03, 0x41, 0x42]) [0x00, 0x02, 0x43, 0x00])) (code := .rpIncomplete) (v0 := 0) (v1 := 0)
    (by decide)
  have hsrc : t.src.bytes.length = (4 : Arg).toNat ∧ (8 : Arg).toNat ≤ t.dst.cap := by
    obtain ⟨-, rfl⟩ := exec_readPacket.1 ht
    decide
  exact ⟨inv_of (by decide), t, _, _, _, _, ht, hr, by decide, exec_bufWrite.2 ⟨hsrc.1, rfl⟩,
    exec_readPacket.2 ⟨hsrc.2, rfl⟩, exec_bufWrite.2 ⟨by decide, rfl⟩, exec_readPacket.2 ⟨by decide, rfl⟩⟩

/-- A command at the port. -/
def atPort (line : ResetLine) (word : CmdWord) (overlapping : Bool) : State :=
  { State.resetWith 8 with line := line, pending := [.command ⟨word, ⟨0, []⟩, ⟨0, 0⟩, overlapping⟩] }

/-- O41, O43: a command that decodes, and a reserved word, each at the port after reset. -/
theorem witness_step_command :
    ((atPort .released 0x00000009 false).pending = .command ⟨0x00000009, ⟨0, []⟩, ⟨0, 0⟩, false⟩ :: [] ∧
      (atPort .released 0x00000009 false).line = .released ∧ decode 0x00000009 = .ok .decStatus) ∧
    ((atPort .released 0x0000000A false).pending = .command ⟨0x0000000A, ⟨0, []⟩, ⟨0, 0⟩, false⟩ :: [] ∧
      (atPort .released 0x0000000A false).line = .released ∧ ReservedWord 0x0000000A) :=
  ⟨⟨rfl, rfl, by decide⟩, rfl, rfl, .inr (.inl (by decide))⟩

/-- O42. -/
theorem witness_StepRunsSelectedRow :
    ({ decoding .grab 0 3 8 with pending := [.cobsByte 0x00 ⟨0x100, 8⟩] } : State).pending =
      .cobsByte 0x00 ⟨0x100, 8⟩ :: [] ∧
    ({ decoding .grab 0 3 8 with pending := [.cobsByte 0x00 ⟨0x100, 8⟩] } : State).line = .released ∧
    decodeKey (keyOf DecState.grab.code (decide (0 < 0)) 0x00) = .ok .cobsT4 :=
  ⟨rfl, rfl, by decide⟩

/-- O44: each of the three clauses. -/
theorem witness_UntimelyCommandsAreRefused :
    (atPort .beforeFirst 0x00000001 false).line = .beforeFirst ∧ (atPort .asserted 0x00000001 false).line = .asserted ∧
    ((atPort .released 0x00000001 true).line = .released ∧
      (atPort .released 0x00000001 true).pending = .command ⟨0x00000001, ⟨0, []⟩, ⟨0, 0⟩, true⟩ :: []) :=
  ⟨rfl, rfl, rfl, rfl⟩

/-- O45: one byte too few or too many in `SRC`, one too few in `DST`, and regions that share one byte. -/
theorem witness_BadRegionsAreRefused :
    (withBytes (decoding .idle 0 0 4) [1]).src.bytes.length ≠ (2 : Arg).toNat ∧
    (withBytes (decoding .idle 0 0 4) [1]).src.bytes.length ≠ (0 : Arg).toNat ∧
    (decoding .idle 0 0 4).dst.cap < (5 : Arg).toNat ∧
    (withBytes { decoding .idle 0 0 4 with dst := ⟨0x100, 3⟩ } [1]).dst.cap <
      (withBytes { decoding .idle 0 0 4 with dst := ⟨0x100, 3⟩ } [1]).dec.dl ∧
    (({ decoding .idle 0 0 4 with src := ⟨0x103, [1]⟩ } : State).src.bytes.length = (1 : Arg).toNat ∧
      ({ decoding .idle 0 0 4 with src := ⟨0x103, [1]⟩ } : State).dec.dl ≤
        ({ decoding .idle 0 0 4 with src := ⟨0x103, [1]⟩ } : State).dst.cap ∧
      ¬ ({ decoding .idle 0 0 4 with src := ⟨0x103, [1]⟩ } : State).RegionsApart) :=
  ⟨by decide, by decide, by decide, by decide, by decide, by decide, fun h => by
    have := (State.regionsApart_iff _).1 h; revert this; decide⟩

/-- O46, O47. -/
theorem witness_reset_events :
    ({ ring 6 2 [1, 2, 3, 4] with pending := [.assertReset, .releaseReset] } : State).pending =
      .assertReset :: .releaseReset :: [] := rfl

/-- O49: the two ends of the range of `N`. -/
theorem witness_ResetStateIsGood : (2 ≤ 2 ∧ 2 ≤ 2 ^ 24) ∧ (2 ≤ 16777216 ∧ 16777216 ≤ 2 ^ 24) := by decide

/-- O50: a good state whose step takes a command, and one whose step takes a byte. -/
theorem witness_StepKeepsInvariant :
    ((atPort .released 0x00000009 false).Inv ∧ ∃ t, step (atPort .released 0x00000009 false) = .next t) ∧
    (({ decoding .grab 0 3 8 with pending := [.cobsByte 0x00 ⟨0x100, 8⟩] } : State).Inv ∧
      ∃ t, step { decoding .grab 0 3 8 with pending := [.cobsByte 0x00 ⟨0x100, 8⟩] } = .next t) :=
  ⟨⟨inv_of (by decide), _, rfl⟩, inv_of (by decide), _, rfl⟩

/-- O51: an overflow write moves `RC`, `WC` and the storage; a push moves the decoder and host memory. -/
theorem witness_WhoWritesWhat :
    (∃ t, exec (.bufWrite 4) (withBytes (ring 6 2 [3, 4, 5, 6]) [7, 8, 9, 10]) = .next t ∧
      t.rc ≠ (ring 6 2 [3, 4, 5, 6]).rc ∧ t.wc ≠ (ring 6 2 [3, 4, 5, 6]).wc) ∧
    (∃ t, exec (.decPush 2) (withBytes (decoding .idle 0 0 4) [0x03, 0x41]) = .next t ∧
      t.dec ≠ (decoding .idle 0 0 4).dec ∧ t.hostMem ≠ (decoding .idle 0 0 4).hostMem) ∧
    ∃ t, exec (.decReset 5) (decoding .idle 0 0 4) = .next t ∧ t.dec.dl ≠ (decoding .idle 0 0 4).dec.dl := by
  refine ⟨⟨_, exec_bufWrite.2 ⟨by decide, rfl⟩, by decide, by decide⟩,
    ⟨_, exec_decPush.2 ⟨by decide, by decide, by decide, rfl⟩, by decide, by decide⟩,
    ⟨_, exec_decReset _ _, by decide⟩⟩

/-- O53: each of the five commands completes. -/
theorem witness_BufferCommandsIgnoreDecoder :
    (∃ t, exec .bufAvailRead (ring 0 3 [1, 2, 3]) = .next t) ∧ (∃ t, exec .bufAvailWrite (ring 0 3 [1, 2, 3]) = .next t) ∧
    (∃ t, exec (.bufRead 8) (ring 0 3 [1, 2, 3]) = .next t) ∧ (∃ t, exec (.bufWrite 0) (ring 0 3 [1, 2, 3]) = .next t) ∧
    ∃ t, exec (.readPacket 8) (ring 0 3 [1, 2, 3]) = .next t :=
  ⟨⟨_, rfl⟩, ⟨_, rfl⟩, ⟨_, exec_bufRead.2 ⟨by decide, rfl⟩⟩, ⟨_, exec_bufWrite.2 ⟨by decide, rfl⟩⟩,
    ⟨_, exec_readPacket.2 ⟨by decide, rfl⟩⟩⟩

/-- O54: each of the commands, and a row. -/
theorem witness_DecoderCommandsIgnoreBuffer :
    (∃ t, exec (.decReset 4) (decoding .grab 1 0 4) = .next t) ∧ (∃ t, exec (.decFeed 0x41) (decoding .grab 1 0 4) = .next t) ∧
    (∃ t, exec (.decPush 0) (decoding .grab 1 0 4) = .next t) ∧ (∃ t, exec .decStatus (decoding .grab 1 0 4) = .next t) ∧
    (.cobsT8 0x41 ∈ rowsOnByte 0x41 ∧ ∃ t, exec (.cobsT8 0x41) (decoding .grab 1 0 4) = .next t) :=
  ⟨⟨_, rfl⟩, ⟨_, exec_decFeed.2 ⟨by decide, rfl⟩⟩, ⟨_, exec_decPush.2 ⟨by decide, by decide, by decide, rfl⟩⟩, ⟨_, rfl⟩,
    by decide, _, rfl⟩

/-- O55: the bytes at the ends of each class. -/
theorem witness_DecodeOfEncode :
    (Instr.cobsT3 0x01).WellFormed ∧ (Instr.cobsT3 0xFE).WellFormed ∧ (Instr.cobsT8 0x01).WellFormed ∧
    (Instr.cobsT8 0xFF).WellFormed ∧ (Instr.bufWrite 0xFFFFFF).WellFormed := by decide

/-- O56. -/
theorem witness_EncodeOfDecode : decode 0xFFFFFF04 = .ok (.bufWrite 0xFFFFFF) := by decide

end Sys2Proof.Tests
end

/-! PROOFS of the statements about the block's scope (00_scope.md): the invariant at reset and under every step, the
decoder leaf's byte event, and the decoder's independence of the buffer. -/

namespace Sys2Proof.Machine

/-! ## The state after reset -/

/-- An empty buffer, a good decoder and canonical host memory make a good state (R33, R35). -/
theorem State.inv_of_empty {s : State} (hlow : 2 ≤ s.cap) (hhigh : s.cap ≤ 2 ^ 24) (hstore : s.store = [])
    (hwc : s.wc = 0) (hrc : s.rc = 0) (hdec : s.dec.Inv) (hmem : s.hostMem.wf) : s.Inv where
  capLow := hlow
  capHigh := hhigh
  wcBound := by omega
  rcBound := by omega
  decoder := hdec
  storeWf := by rw [hstore]; exact List.Pairwise.nil
  storeBound := by simp [hstore]
  unreadWritten := by
    have hocc : s.occ = 0 := by rw [State.occ, hwc, hrc]; exact fwd_self (by omega)
    simp [hocc]
  hostWf := hmem

theorem State.inv_resetWith {n : Nat} (hlow : 2 ≤ n) (hhigh : n ≤ 2 ^ 24) : (State.resetWith n).Inv :=
  State.inv_of_empty hlow hhigh rfl rfl rfl (inv_freshDecoder (by decide)) List.Pairwise.nil

/-! ## What `BUF_WRITE` leaves unread

Appending `len` bytes makes `occ + len` of them, of which the oldest beyond `N - 1` are dropped; both cases of R73 are
this one, with a difference of natural numbers that is 0 when the bytes fit. -/

/-- The new `RC` of a `BUF_WRITE` has moved over the bytes that no longer fit (R73). -/
theorem State.Inv.afterWrite_rc {s : State} (h : s.Inv) (len : Nat) :
    (s.afterWrite len).rc = (s.rc + (s.occ + len - (s.cap - 1))) % s.cap := by
  have hocc := h.occ_lt
  have havail := h.occ_add_availWrite
  show cursorAfterWrite s.cap s.rc ((s.wc + len) % s.cap) len s.availWrite = _
  unfold cursorAfterWrite
  split
  case isTrue hover =>
    calc ((s.wc + len) % s.cap + 1) % s.cap
        = (s.rc + s.occ + (len + 1)) % s.cap := by
          rw [Nat.mod_add_mod, ← h.rc_add_occ, Nat.add_assoc, Nat.mod_add_mod]
      _ = (s.rc + (s.occ + len - (s.cap - 1)) + s.cap) % s.cap := by congr 1; omega
      _ = (s.rc + (s.occ + len - (s.cap - 1))) % s.cap := Nat.add_mod_right _ _
  case isFalse hfits =>
    rw [show s.occ + len - (s.cap - 1) = 0 by omega, Nat.add_zero, Nat.mod_eq_of_lt h.rcBound]

/-- After a `BUF_WRITE` all bytes are unread, or `N - 1` of them (R73). -/
theorem State.Inv.afterWrite_occ {s : State} (h : s.Inv) (len : Nat) :
    (s.afterWrite len).occ = min (s.occ + len) (s.cap - 1) := by
  have hcap := h.capPos
  show fwd s.cap (s.afterWrite len).rc ((s.wc + len) % s.cap) = _
  have hwc : (s.wc + len) % s.cap = ((s.afterWrite len).rc + min (s.occ + len) (s.cap - 1)) % s.cap := by
    rw [h.afterWrite_rc, ← h.rc_add_occ, Nat.mod_add_mod, Nat.mod_add_mod]
    congr 1; omega
  rw [hwc]
  exact fwd_add (h.afterWrite_rc len ▸ Nat.mod_lt _ hcap) (by omega)

/-- The bytes that were unread and the bytes copied behind them all have an entry. -/
theorem State.Inv.isSome_afterWrite {s : State} (h : s.Inv) {j : Nat} (hj : j < s.occ + s.src.bytes.length) :
    ((s.afterWrite s.src.bytes.length).store.read ((s.rc + j) % s.cap)).isSome := by
  refine isSome_writeRing s.cap s.store s.wc s.src.bytes _ ?_
  rcases Nat.lt_or_ge j s.occ with hold | hnew
  · exact .inl (h.unreadWritten j hold)
  · refine .inr ⟨j - s.occ, by omega, ?_⟩
    rw [← h.rc_add_occ, Nat.mod_add_mod]
    congr 1; omega

theorem State.Inv.afterWrite {s : State} (h : s.Inv) : (s.afterWrite s.src.bytes.length).Inv where
  capLow := h.capLow
  capHigh := h.capHigh
  wcBound := Nat.mod_lt _ h.capPos
  rcBound := h.afterWrite_rc _ ▸ Nat.mod_lt _ h.capPos
  decoder := h.decoder
  storeWf := wf_writeRing _ h.storeWf _ _
  storeBound := bound_writeRing h.capPos h.storeBound _ _
  unreadWritten := by
    intro k hk
    rw [h.afterWrite_occ] at hk
    show ((s.afterWrite s.src.bytes.length).store.read (((s.afterWrite s.src.bytes.length).rc + k) % s.cap)).isSome
    rw [h.afterWrite_rc, Nat.mod_add_mod, Nat.add_assoc]
    exact h.isSome_afterWrite (by omega)
  hostWf := h.hostWf

/-! ## The other instructions keep the invariant -/

theorem State.Inv.respond {s : State} (h : s.Inv) (code : RespCode) (v0 v1 : Nat) : (s.respond code v0 v1).Inv :=
  h.congr rfl rfl rfl rfl h.decoder h.hostWf

theorem State.Inv.accept {s : State} (h : s.Inv) (rest : List HostEvent) (src : SrcRegion) (dst : DstRegion) :
    (s.accept rest src dst).Inv :=
  h.congr rfl rfl rfl rfl h.decoder h.hostWf

theorem State.Inv.afterRead {s : State} (h : s.Inv) {count : Nat} (hc : count ≤ s.occ) : (s.afterRead count).Inv :=
  h.advance hc rfl rfl rfl rfl h.decoder (Memory.wf_writeBytes h.hostWf _ _)

theorem State.Inv.afterRow {s : State} (h : s.Inv) (base : Nat) (b : Byte) :
    (s.afterRow (decStep base b s.dec s.hostMem)).Inv :=
  h.congr rfl rfl rfl rfl (inv_decStep base b _ h.decoder) (wf_decStep base b _ h.hostWf)

theorem State.Inv.afterFeed {s : State} (h : s.Inv) (b : Byte) : (s.afterFeed b).Inv := by
  rw [State.afterFeed_eq]
  exact h.congr rfl rfl rfl rfl (inv_decStep _ b _ h.decoder) (wf_decStep _ b _ h.hostWf)

theorem State.Inv.afterPush {s : State} (h : s.Inv) : s.afterPush.Inv := by
  rw [State.afterPush_eq]
  exact h.congr rfl rfl rfl rfl (inv_feed _ _ _ _ h.decoder) (wf_feed _ _ _ _ h.hostWf)

/-- Whatever the outcome, `READ_PACKET` moves the read cursor over unread bytes only (R117, R118, R120). -/
theorem State.Inv.finishPacket {s : State} (h : s.Inv) {f : Fed} (hc : f.consumed ≤ s.occ) (hm : f.mem.wf) :
    (s.finishPacket f).Inv := by
  unfold State.finishPacket
  cases f.stop with
  | exhausted => exact h.congr rfl rfl rfl rfl h.decoder hm
  | complete l => exact h.advance hc rfl rfl rfl rfl h.decoder hm
  | error k => exact h.advance hc rfl rfl rfl rfl h.decoder hm

theorem State.Inv.finishPacket_session {s : State} (h : s.Inv) (hne : s.rc ≠ s.wc) (destLen : Nat) :
    (s.finishPacket (s.packetSession destLen)).Inv := by
  rw [h.packetSession_eq hne]
  refine h.finishPacket ?_ (wf_feed _ _ _ _ h.hostWf)
  simpa using feed_consumed_le s.dst.base (freshDecoder destLen) s.hostMem 0 s.unread

/-- Every instruction keeps the invariant. -/
theorem exec_keeps_inv {i : Instr} {s t : State} (h : s.Inv) (he : exec i s = .next t) : t.Inv := by
  rcases row_byte he with ⟨b, hrow⟩ | hquery | ⟨n, rfl⟩ | ⟨n, rfl⟩ | ⟨n, rfl⟩ | ⟨b, rfl⟩ | ⟨n, rfl⟩ | ⟨n, rfl⟩
  · exact exec_row hrow he ▸ h.afterRow _ b
  · simp only [List.mem_cons, List.not_mem_nil, or_false] at hquery
    rcases hquery with rfl | rfl | rfl <;> obtain rfl := Host.Outcome.next.inj he <;> exact h.respond _ _ _
  · obtain ⟨-, rfl⟩ := exec_bufRead.1 he
    exact h.afterRead (Nat.min_le_left _ _)
  · obtain ⟨hlen, rfl⟩ := exec_bufWrite.1 he
    exact hlen ▸ h.afterWrite
  · obtain rfl := Host.Outcome.next.inj ((exec_decReset n s).symm.trans he)
    exact h.congr rfl rfl rfl rfl (inv_freshDecoder n.isLt) h.hostWf
  · obtain ⟨-, rfl⟩ := exec_decFeed.1 he
    exact h.afterFeed b
  · obtain ⟨-, -, -, rfl⟩ := exec_decPush.1 he
    exact h.afterPush
  · obtain ⟨-, rfl⟩ := exec_readPacket.1 he
    split
    case isTrue => exact h.respond _ _ _
    case isFalse hne => exact h.finishPacket_session hne _

/-! ## The decoder leaf and the buffer -/

/-- The block with another buffer: its storage and its cursors (R2). -/
abbrev State.withBuffer (s : State) (store : Memory) (wc rc : Nat) : State :=
  { s with store := store, wc := wc, rc := rc }

section
variable {s t : State} (store : Memory) (wc rc : Nat)

theorem runRow_withBuffer {selected : Bool} {r : Stepped} (h : runRow selected r s = .next t) :
    runRow selected r (s.withBuffer store wc rc) = .next (t.withBuffer store wc rc) := by
  obtain ⟨hsel, rfl⟩ := runRow_eq_next.1 h
  exact runRow_eq_next.2 ⟨hsel, rfl⟩

/-- The two rows that ask for a `DST` region (R87, R92). -/
theorem exec_payloadRow_withBuffer {i : Instr} {b : Byte} (hi : i = .cobsT8 b ∨ i = .cobsT13 b)
    (h : exec i s = .next t) : exec i (s.withBuffer store wc rc) = .next (t.withBuffer store wc rc) := by
  rcases hi with rfl | rfl <;> simp only [exec, execCobsT8, execCobsT13, withDst_eq_next] at h ⊢ <;>
    exact h.imp_right (runRow_withBuffer store wc rc)

theorem State.respondStep_withBuffer (r : StepResult) :
    (s.withBuffer store wc rc).respondStep r = (s.respondStep r).withBuffer store wc rc := by
  cases r <;> rfl

theorem State.respondPush_withBuffer (n : Nat) (r : FeedStop) :
    (s.withBuffer store wc rc).respondPush n r = (s.respondPush n r).withBuffer store wc rc := by
  cases r <;> rfl

/-- A row runs alike whatever the buffer holds. -/
theorem exec_row_withBuffer {i : Instr} {b : Byte} (hi : i ∈ rowsOnByte b) (h : exec i s = .next t) :
    exec i (s.withBuffer store wc rc) = .next (t.withBuffer store wc rc) := by
  by_cases hpay : i = .cobsT8 b ∨ i = .cobsT13 b
  · exact exec_payloadRow_withBuffer store wc rc hpay h
  · obtain ⟨h8, h13⟩ := not_or.1 hpay
    unfold rowsOnByte at hi
    split_ifs at hi <;> simp only [List.mem_cons, List.not_mem_nil, h8, h13, false_or, or_false] at hi
    · rcases hi with rfl | rfl | rfl | rfl | rfl <;> exact runRow_withBuffer store wc rc h
    · rcases hi with rfl | rfl | rfl <;> exact runRow_withBuffer store wc rc h
    · rcases hi with rfl | rfl | rfl <;> exact runRow_withBuffer store wc rc h

/-- A command of the decoder, or a row, runs alike whatever the buffer holds, and leaves it as it was (R2). -/
theorem exec_withBuffer {i : Instr}
    (hi : (∃ n, i = .decReset n) ∨ (∃ b, i = .decFeed b) ∨ (∃ n, i = .decPush n) ∨ i = .decStatus ∨
      ∃ b, i ∈ rowsOnByte b) (h : exec i s = .next t) :
    exec i (s.withBuffer store wc rc) = .next (t.withBuffer store wc rc) := by
  rcases hi with ⟨n, rfl⟩ | ⟨b, rfl⟩ | ⟨n, rfl⟩ | rfl | ⟨b, hrow⟩
  · obtain rfl := Host.Outcome.next.inj h
    rfl
  · obtain ⟨hdst, rfl⟩ := exec_decFeed.1 h
    exact exec_decFeed.2 ⟨hdst, (State.respondStep_withBuffer (s := s.withStep _ _) store wc rc _).symm⟩
  · obtain ⟨hsrc, hdst, happart, rfl⟩ := exec_decPush.1 h
    exact exec_decPush.2 ⟨hsrc, hdst, happart, (State.respondPush_withBuffer (s := s.withStep _ _) store wc rc _ _).symm⟩
  · obtain rfl := Host.Outcome.next.inj h
    rfl
  · exact exec_row_withBuffer store wc rc hrow h

end

/-! ## The obligations -/

/-- Settles O50: by what a step can do. A reset empties the buffer; every other event keeps what the invariant speaks
of until its instruction, which keeps the invariant. -/
theorem stepKeepsInvariant : Obligations.StepKeepsInvariant := by
  intro s t h hstep
  rcases step_cases hstep with ⟨-, rfl⟩ | ⟨rest, -, rfl⟩ | ⟨rest, -, rfl⟩ | ⟨r, rest, i, -, -, -, -, he⟩ |
    ⟨b, dst, rest, i, -, -, -, he⟩
  · exact h.congr rfl rfl rfl rfl h.decoder h.hostWf
  · exact State.inv_of_empty h.capLow h.capHigh rfl rfl rfl (inv_freshDecoder (by decide)) h.hostWf
  · exact h.congr rfl rfl rfl rfl h.decoder h.hostWf
  · exact exec_keeps_inv (h.accept rest r.src r.dst) he
  · exact exec_keeps_inv (h.accept rest noSrc dst) he

/-- Settles O42: the statement's key is the decoder's own, so this is the law of a byte at the port. -/
theorem stepRunsSelectedRow : Obligations.StepRunsSelectedRow := by
  intro s b dst rest i hpending hline hkey
  exact step_cobsByte hpending hline hkey

/-- Settles O49. -/
theorem resetStateIsGood : Obligations.ResetStateIsGood :=
  ⟨fun _ => State.inv_resetWith, State.inv_resetWith (by decide) (by decide)⟩

/-- Settles O54: running with the buffer that is there already gives the frame. -/
theorem decoderCommandsIgnoreBuffer : Obligations.DecoderCommandsIgnoreBuffer := by
  intro i s t store wc rc hi h
  have hsame : t = t.withBuffer s.store s.wc s.rc :=
    Host.Outcome.next.inj (h.symm.trans (exec_withBuffer s.store s.wc s.rc hi h))
  exact ⟨(congrArg State.store hsame :), (congrArg State.wc hsame :), (congrArg State.rc hsame :),
    exec_withBuffer store wc rc hi h⟩

end Sys2Proof.Machine

/-! PROOFS of the statements about the block's registers (10_state.md): their reset values, which instruction writes
which of them, and what no instruction reads. -/

namespace Sys2Proof.Machine

/-! ## The rows: what they read, and which of them write host memory -/

/-- The rows that write no payload byte (R80 to R86, R88 to R91). -/
def rowsWithoutPayload (b : Byte) : List Instr :=
  [.cobsT1, .cobsT2, .cobsT3 b, .cobsT4, .cobsT5, .cobsT6 b, .cobsT7, .cobsT9, .cobsT10, .cobsT11 b, .cobsT12]

/-- A row of a byte is one of the two payload rows or one that writes no payload byte. -/
theorem rowsOnByte_cases {i : Instr} {b : Byte} (hi : i ∈ rowsOnByte b) :
    (i = .cobsT8 b ∨ i = .cobsT13 b) ∨ i ∈ rowsWithoutPayload b := by
  unfold rowsOnByte at hi
  split_ifs at hi <;> simp only [rowsWithoutPayload, List.mem_cons, List.not_mem_nil, or_false] at hi ⊢ <;> tauto

/-- A row that writes no payload byte leaves host memory alone, and the decoder alone decides whether it runs. -/
theorem exec_rowWithoutPayload {i : Instr} {b : Byte} {s t : State} (hi : i ∈ rowsWithoutPayload b)
    (h : exec i s = .next t) :
    t.hostMem = s.hostMem ∧ ∀ s' : State, s'.dec = s.dec → ∃ t', exec i s' = .next t' := by
  simp only [rowsWithoutPayload, List.mem_cons, List.not_mem_nil, or_false] at hi
  rcases hi with rfl | rfl | rfl | rfl | rfl | rfl | rfl | rfl | rfl | rfl | rfl <;>
    obtain ⟨hsel, rfl⟩ := runRow_eq_next.1 h <;>
    exact ⟨rfl, fun s' hdec => ⟨_, runRow_eq_next.2 ⟨hdec ▸ hsel, rfl⟩⟩⟩

/-- The decoder and the `DST` region decide whether a row runs (R64, R61). -/
theorem exec_row_completes {i : Instr} {b : Byte} {s t : State} (hi : i ∈ rowsOnByte b) (h : exec i s = .next t)
    (s' : State) (hdec : s'.dec = s.dec) (hdst : s'.dst = s.dst) : ∃ t', exec i s' = .next t' := by
  rcases rowsOnByte_cases hi with hpay | hother
  · rcases hpay with rfl | rfl <;>
      simp only [exec, execCobsT8, execCobsT13, withDst_eq_next, runRow_eq_next, hdec, hdst] at h ⊢ <;>
      exact ⟨_, h.1, h.2.1, rfl⟩
  · exact (exec_rowWithoutPayload hother h).2 s' hdec

/-- Only T8 and T13 write host memory (R87, R92). -/
theorem payloadRow_of_hostMem_ne {i : Instr} {b : Byte} {s t : State} (hi : i ∈ rowsOnByte b) (h : exec i s = .next t)
    (hne : t.hostMem ≠ s.hostMem) : i = .cobsT8 b ∨ i = .cobsT13 b :=
  (rowsOnByte_cases hi).resolve_right fun hother => hne (exec_rowWithoutPayload hother h).1

/-! ## The free value's counter -/

/-- The block with other unspecified reset contents: another value of their counter (R34). -/
abbrev State.withEpoch (s : State) (e : Nat) : State := { s with epoch := e }

theorem State.Inv.withEpoch {s : State} (h : s.Inv) (e : Nat) : (s.withEpoch e).Inv :=
  h.congr rfl rfl rfl rfl h.decoder h.hostWf

/-- An unread byte was written since reset, so it is none of the reset contents (R78). -/
theorem State.Inv.unread_withEpoch {s : State} (h : s.Inv) (e : Nat) : (s.withEpoch e).unread = s.unread := by
  refine List.map_congr_left fun k hk => ?_
  obtain ⟨byte, hread⟩ := Option.isSome_iff_exists.1 (h.unreadWritten k (List.mem_range.1 hk))
  exact (State.storeByte_of_read (s := s.withEpoch e) hread).trans (State.storeByte_of_read hread).symm

/-- A `BUF_READ` delivers unread bytes only (R74). -/
theorem State.afterRead_eq {s : State} {count : Nat} (hc : count ≤ s.occ) :
    s.afterRead count =
      ({ s with hostMem := s.hostMem.writeBytes s.dst.base (s.unread.take count) }.advanceRead count).respond
        .ok count 0 := by
  rw [State.unread, State.ringBytes_take _ _ hc]; rfl

theorem State.Inv.afterRead_withEpoch {s : State} (h : s.Inv) (e : Nat) {count : Nat} (hc : count ≤ s.occ) :
    (s.withEpoch e).afterRead count = (s.afterRead count).withEpoch e := by
  rw [State.afterRead_eq hc, State.afterRead_eq (s := s.withEpoch e) hc, h.unread_withEpoch]; rfl

/-- A `READ_PACKET` decodes unread bytes only (R122). -/
theorem State.Inv.packetSession_withEpoch {s : State} (h : s.Inv) (e : Nat) (hne : s.rc ≠ s.wc) (destLen : Nat) :
    (s.withEpoch e).packetSession destLen = s.packetSession destLen := by
  rw [h.packetSession_eq hne, (h.withEpoch e).packetSession_eq hne, h.unread_withEpoch]

theorem State.respondStep_withEpoch (s : State) (e : Nat) (r : StepResult) :
    (s.withEpoch e).respondStep r = (s.respondStep r).withEpoch e := by
  cases r <;> rfl

theorem State.respondPush_withEpoch (s : State) (e n : Nat) (r : FeedStop) :
    (s.withEpoch e).respondPush n r = (s.respondPush n r).withEpoch e := by
  cases r <;> rfl

theorem State.finishPacket_withEpoch (s : State) (e : Nat) (f : Fed) :
    (s.withEpoch e).finishPacket f = (s.finishPacket f).withEpoch e := by
  unfold State.finishPacket; cases f.stop <;> rfl

/-- From a good state every instruction runs alike whatever the reset contents are. -/
theorem exec_withEpoch {i : Instr} {s t : State} (e : Nat) (h : s.Inv) (he : exec i s = .next t) :
    exec i (s.withEpoch e) = .next (t.withEpoch e) := by
  rcases row_byte he with ⟨b, hrow⟩ | hquery | ⟨n, rfl⟩ | ⟨n, rfl⟩ | ⟨n, rfl⟩ | ⟨b, rfl⟩ | ⟨n, rfl⟩ | ⟨n, rfl⟩
  · obtain ⟨t', he'⟩ := exec_row_completes hrow he (s.withEpoch e) rfl rfl
    rw [he', exec_row hrow he', exec_row hrow he]; rfl
  · simp only [List.mem_cons, List.not_mem_nil, or_false] at hquery
    rcases hquery with rfl | rfl | rfl <;> obtain rfl := Host.Outcome.next.inj he <;> rfl
  · obtain ⟨hdst, rfl⟩ := exec_bufRead.1 he
    exact exec_bufRead.2 ⟨hdst, (h.afterRead_withEpoch e (Nat.min_le_left _ _)).symm⟩
  · obtain ⟨hsrc, rfl⟩ := exec_bufWrite.1 he
    exact exec_bufWrite.2 ⟨hsrc, rfl⟩
  · obtain rfl := Host.Outcome.next.inj he
    rfl
  · obtain ⟨hdst, rfl⟩ := exec_decFeed.1 he
    exact exec_decFeed.2 ⟨hdst, (State.respondStep_withEpoch (s.withStep _ _) e _).symm⟩
  · obtain ⟨hsrc, hdst, happart, rfl⟩ := exec_decPush.1 he
    exact exec_decPush.2 ⟨hsrc, hdst, happart, (State.respondPush_withEpoch (s.withStep _ _) e _ _).symm⟩
  · obtain ⟨hdst, rfl⟩ := exec_readPacket.1 he
    refine exec_readPacket.2 ⟨hdst, ?_⟩
    split
    case isTrue => rfl
    case isFalse hne => rw [State.finishPacket_withEpoch s e, h.packetSession_withEpoch e hne]

/-! ## The buffer's commands and the decoder registers -/

/-- The block with other decoder registers (R28). -/
abbrev State.withDec (s : State) (d : Decoder) : State := { s with dec := d }

theorem State.finishPacket_withDec (s : State) (d : Decoder) (f : Fed) :
    (s.withDec d).finishPacket f = (s.finishPacket f).withDec d := by
  unfold State.finishPacket; cases f.stop <;> rfl

/-- A command of the buffer, or `READ_PACKET`, runs alike whatever the decoder registers hold (R28). -/
theorem exec_withDec {i : Instr} {s t : State} (d : Decoder)
    (hi : i = .bufAvailRead ∨ i = .bufAvailWrite ∨ (∃ n, i = .bufRead n) ∨ (∃ n, i = .bufWrite n) ∨
      ∃ n, i = .readPacket n) (h : exec i s = .next t) :
    exec i (s.withDec d) = .next (t.withDec d) := by
  rcases hi with rfl | rfl | ⟨n, rfl⟩ | ⟨n, rfl⟩ | ⟨n, rfl⟩
  · obtain rfl := Host.Outcome.next.inj h
    rfl
  · obtain rfl := Host.Outcome.next.inj h
    rfl
  · obtain ⟨hdst, rfl⟩ := exec_bufRead.1 h
    exact exec_bufRead.2 ⟨hdst, rfl⟩
  · obtain ⟨hsrc, rfl⟩ := exec_bufWrite.1 h
    exact exec_bufWrite.2 ⟨hsrc, rfl⟩
  · obtain ⟨hdst, rfl⟩ := exec_readPacket.1 h
    refine exec_readPacket.2 ⟨hdst, ?_⟩
    split
    case isTrue => rfl
    case isFalse => exact (State.finishPacket_withDec s d _).symm

/-! ## Which instruction writes what -/

/-- Only an overflowing `BUF_WRITE` moves `RC` (R73). -/
theorem State.availWrite_lt_of_afterWrite_rc {s : State} {len : Nat} (h : (s.afterWrite len).rc ≠ s.rc) :
    s.availWrite < len := by
  by_contra hfits
  exact h (if_neg hfits)

/-! ## The obligations -/

/-- Settles O10: an instruction reads unread bytes of the storage only, and those were written (R78). -/
theorem resetContentsNeverObserved : Obligations.ResetContentsNeverObserved :=
  fun _ _ _ e => exec_withEpoch e

/-- Settles O8: the read cursor moves over the bytes delivered, which are all of the unread ones if `max_len` is more. -/
theorem bufReadRemovesFront : Obligations.BufReadRemovesFront := by
  intro s t maxLen h he
  obtain ⟨-, rfl⟩ := exec_bufRead.1 he
  calc (s.afterRead (min s.occ maxLen.toNat)).unread
      = s.unread.drop (min s.occ maxLen.toNat) := h.unread_advance (Nat.min_le_left _ _) rfl rfl rfl rfl rfl
    _ = s.unread.drop maxLen.toNat := List.drop_eq_drop_iff.2 (by rw [State.length_unread]; omega)

/-- Settles O51: by what each instruction leaves. The clauses that are not the frame of the state it leaves are `RC` at a
`BUF_WRITE`, and the decoder and host memory at a row. -/
theorem whoWritesWhat : Obligations.WhoWritesWhat := by
  intro i s t h
  rcases row_byte h with ⟨b, hrow⟩ | hquery | ⟨n, rfl⟩ | ⟨n, rfl⟩ | ⟨n, rfl⟩ | ⟨b, rfl⟩ | ⟨n, rfl⟩ | ⟨n, rfl⟩
  · have hmem := payloadRow_of_hostMem_ne hrow h
    have ht := exec_row hrow h
    exact ⟨by simp [ht], by simp [ht], by simp [ht], fun _ => .inr (.inr (.inr ⟨b, hrow⟩)),
      fun hne => .inr (.inr (.inr (.inr ⟨b, hmem hne⟩))), by simp [ht]⟩
  · simp only [List.mem_cons, List.not_mem_nil, or_false] at hquery
    rcases hquery with rfl | rfl | rfl <;> obtain rfl := Host.Outcome.next.inj h <;> simp
  · obtain ⟨-, rfl⟩ := exec_bufRead.1 h
    simp [State.afterRead]
  · obtain ⟨-, rfl⟩ := exec_bufWrite.1 h
    refine ⟨fun _ => ⟨n, rfl⟩, fun hne => .inr (.inr ⟨n, rfl, State.availWrite_lt_of_afterWrite_rc hne⟩), ?_⟩
    simp [State.afterWrite]
  · obtain rfl := Host.Outcome.next.inj h
    simp
  · obtain ⟨-, rfl⟩ := exec_decFeed.1 h
    simp [State.afterFeed_eq]
  · obtain ⟨-, -, -, rfl⟩ := exec_decPush.1 h
    simp [State.afterPush_eq]
  · obtain ⟨-, rfl⟩ := exec_readPacket.1 h
    split
    · simp
    · rw [State.finishPacket_eq]; simp

/-- Settles O48. -/
theorem resetValues : Obligations.ResetValues := by
  intro n
  have hocc : (State.resetWith n).occ = 0 := by simp [State.occ, fwd]
  exact ⟨rfl, rfl, rfl, rfl, rfl, rfl, List.length_eq_zero_iff.1 ((State.length_unread _).trans hocc)⟩

/-- Settles O52: an instruction that completes drives the port itself, and no meaning reads what it drove before. -/
theorem responsesAreNotState : Obligations.ResponsesAreNotState := by
  intro i s o
  cases i <;> rfl

/-- Settles O53: running with the decoder registers as they are gives the frame. -/
theorem bufferCommandsIgnoreDecoder : Obligations.BufferCommandsIgnoreDecoder := by
  intro i s t d hi h
  have hsame : t = t.withDec s.dec := Host.Outcome.next.inj (h.symm.trans (exec_withDec s.dec hi h))
  exact ⟨(congrArg State.dec hsame :), exec_withDec d hi h⟩

end Sys2Proof.Machine

/-! PROOFS of the statements about host memory (20_memory.md): the command a step takes from the port, the regions a
command is refused for, and that `DEC_PUSH` stays in the `DST` it is given. -/

namespace Sys2Proof.Machine

/-! ## What an operand form does with the regions at the port (R46, R61) -/

theorem withSrc_of_length_eq {len : Nat} {s : State} {body : List Byte → Result} (h : s.src.bytes.length = len) :
    withSrc len s body = body s.src.bytes := if_pos h

theorem withSrc_of_length_ne {len : Nat} {s : State} {body : List Byte → Result} (h : s.src.bytes.length ≠ len) :
    withSrc len s body = .refused .srcLength := if_neg h

theorem withDst_of_le {need : Nat} {s : State} {body : Nat → Result} (h : need ≤ s.dst.cap) :
    withDst need s body = body s.dst.base := if_pos h

theorem withDst_of_lt {need : Nat} {s : State} {body : Nat → Result} (h : s.dst.cap < need) :
    withDst need s body = .refused .dstTooShort := if_neg (Nat.not_le.2 h)

theorem withDisjoint_of_not_disjoint {s : State} {body : Result} (h : ¬ s.Disjoint) :
    withDisjoint s body = .refused .dstOverlapsSrc := if_pos (Nat.not_le.1 h)

/-! ## What a `DEC_PUSH` reports (R56, R57, R100) -/

theorem ErrorKind.number_eq (k : ErrorKind) : k.number = 1 ∨ k.number = 2 := by
  cases k
  · exact .inl rfl
  · exact .inr rfl

/-- The response to a feed from a good session, by how the feed stopped; its numbers fit their fields (R27, R110). -/
theorem State.reports_respondPush (s : State) (base : Nat) {d : Decoder} (m : Memory) {bs : List Byte} (h : d.Inv)
    (hbs : bs.length < 2 ^ 24) :
    ∃ (c : RespCode) (v0 v1 : Nat),
      Reports (s.respondPush (feed base d m 0 bs).consumed (feed base d m 0 bs).stop).out c v0 v1 ∧ v1 ≤ bs.length ∧
      (c = .pushComplete ∧ v0 ≤ d.dl ∨ c = .pushError ∧ (v0 = 1 ∨ v0 = 2) ∨
        c = .pushIncomplete ∧ v0 = 0 ∧ v1 = bs.length) := by
  have hle : (feed base d m 0 bs).consumed ≤ bs.length := by simpa using feed_consumed_le base d m 0 bs
  have hfits := hle.trans_lt hbs
  cases hstop : (feed base d m 0 bs).stop with
  | exhausted =>
    have hall : (feed base d m 0 bs).consumed = bs.length := by simpa using feed_consumed_of_exhausted hstop
    exact ⟨.pushIncomplete, 0, _, (reports_respond (by decide) hfits).2 ⟨rfl, rfl, rfl⟩,
      hle, .inr (.inr ⟨rfl, rfl, hall⟩)⟩
  | complete l =>
    have hl : l ≤ d.dl := feed_length_le h l hstop
    exact ⟨.pushComplete, l, _, (reports_respond (hl.trans_lt h.lengthBound) hfits).2 ⟨rfl, rfl, rfl⟩, hle,
      .inl ⟨rfl, hl⟩⟩
  | error k =>
    have hk := k.number_eq
    exact ⟨.pushError, k.number, _, (reports_respond (by omega) hfits).2 ⟨rfl, rfl, rfl⟩,
      hle, .inr (.inl ⟨rfl, hk⟩)⟩

/-! ## The obligations -/

/-- Settles O22: the frame is that of the state a push leaves, and feeding writes no byte outside `DST[0..DL-1]`. -/
theorem decPushStaysInDst : Obligations.DecPushStaysInDst := by
  intro s len hinv hlen hcap hapart
  have hexec : exec (.decPush len) s = .next s.afterPush :=
    exec_decPush.2 ⟨hlen, hcap, s.regionsApart_iff.1 hapart, rfl⟩
  obtain ⟨c, v0, v1, hreports, hv1, hcases⟩ :=
    s.reports_respondPush s.dst.base s.hostMem hinv (hlen ▸ len.isLt)
  rw [State.afterPush_eq] at hexec
  rw [hlen] at hv1 hcases
  exact ⟨_, _, _, c, v0, v1, hexec, feed_dl _ _ _ _ _, read_feed_outside _ _ _ _ hinv, hreports, hv1, hcases⟩

/-- Settles O41: the state the statement writes out is the one that accepts the command. -/
theorem stepRunsDecodedCommand : Obligations.StepRunsDecodedCommand := by
  intro s r rest i hpending hline hserial hdecode
  exact step_command hpending hline hserial hdecode

/-- Settles O45: each command checks `SRC`, then `DST`, then their overlap (log entry 15); the first check that fails
names the refusal. -/
theorem badRegionsAreRefused : Obligations.BadRegionsAreRefused := by
  intro s n
  refine ⟨fun hsrc => ⟨?_, ?_⟩, fun hdst => ⟨?_, ?_⟩, fun hdst => ⟨fun b => ?_, fun hsrc => ?_⟩,
    fun hsrc hdst hoverlap => ?_⟩
  · rw [exec, execBufWrite, withSrc_of_length_ne hsrc]
  · rw [exec, execDecPush, withSrc_of_length_ne hsrc]
  · rw [exec, execBufRead, withDst_of_lt hdst]
  · rw [exec, execReadPacket, withDst_of_lt hdst]
  · rw [exec, execDecFeed, withDst_of_lt hdst]
  · rw [exec, execDecPush, withSrc_of_length_eq hsrc, withDst_of_lt hdst]
  · rw [exec, execDecPush, withSrc_of_length_eq hsrc, withDst_of_le hdst,
      withDisjoint_of_not_disjoint (mt s.regionsApart_iff.2 hoverlap)]

end Sys2Proof.Machine

/-! PROOFS of the statements about the encodings (30_encoding.md): the decoder and the encoder, the opcode table, the
reserved words at the port, the row that a byte selects, a chunk of the wire format, and the numbers of the codes. -/

namespace Sys2Proof

/-! ## The decoder on a word of an opcode and an argument (R53, R54) -/

/-- The high half of an argument below 256 is clear (R60). -/
theorem extractLsb'_high_eq_zero_iff (arg : Arg) : arg.extractLsb' 8 16 = 0#16 ↔ arg.toNat < 256 := by
  have := arg.isLt
  rw [← BitVec.toNat_inj, BitVec.extractLsb'_toNat, Nat.shiftRight_eq_div_pow, BitVec.toNat_zero]
  omega

theorem toNat_byteArgument (b : Byte) : (0#16 ++ b : Arg).toNat = b.toNat := by
  rw [BitVec.toNat_append]; simp

/-- An argument below 256 is its low byte (R60). -/
theorem byteArgument_extractLsb' {arg : Arg} (h : arg.toNat < 256) : (0#16 ++ arg.extractLsb' 0 8 : Arg) = arg := by
  apply BitVec.eq_of_toNat_eq
  rw [toNat_byteArgument, BitVec.extractLsb'_toNat, Nat.shiftRight_zero, Nat.mod_eq_of_lt h]

section
variable (arg : Arg)

theorem decode_bufAvailRead : decode (wordOf arg 0x01) =
    if arg = 0#24 then .ok .bufAvailRead else .error (.reservedArgument 0x01 arg) := by
  simp [decode, noArgument]

theorem decode_bufAvailWrite : decode (wordOf arg 0x02) =
    if arg = 0#24 then .ok .bufAvailWrite else .error (.reservedArgument 0x02 arg) := by
  simp [decode, noArgument]

theorem decode_bufRead : decode (wordOf arg 0x03) = .ok (.bufRead arg) := by simp [decode]

theorem decode_bufWrite : decode (wordOf arg 0x04) = .ok (.bufWrite arg) := by simp [decode]

theorem decode_decReset : decode (wordOf arg 0x05) = .ok (.decReset arg) := by simp [decode]

theorem decode_decFeed : decode (wordOf arg 0x06) =
    if arg.toNat < 256 then .ok (.decFeed (arg.extractLsb' 0 8)) else .error (.reservedArgument 0x06 arg) := by
  simp [decode, byteArgument, extractLsb'_high_eq_zero_iff]

theorem decode_decPush : decode (wordOf arg 0x07) = .ok (.decPush arg) := by simp [decode]

theorem decode_readPacket : decode (wordOf arg 0x08) = .ok (.readPacket arg) := by simp [decode]

theorem decode_decStatus : decode (wordOf arg 0x09) =
    if arg = 0#24 then .ok .decStatus else .error (.reservedArgument 0x09 arg) := by
  simp [decode, noArgument]

theorem decode_reservedOpcode {opc : Byte} (h : opc.toNat = 0x00 ∨ 0x0A ≤ opc.toNat) :
    decode (wordOf arg opc) = .error (.reservedOpcode opc) := by
  rw [decode, opcodeOf_wordOf]
  split
  case h_10 => rfl
  all_goals omega

end

/-- An opcode is one of the nine, or reserved (R53, R54). -/
theorem opcode_cases (opc : Byte) :
    opc = 0x01 ∨ opc = 0x02 ∨ opc = 0x03 ∨ opc = 0x04 ∨ opc = 0x05 ∨ opc = 0x06 ∨ opc = 0x07 ∨ opc = 0x08 ∨
      opc = 0x09 ∨ (opc.toNat = 0x00 ∨ 0x0A ≤ opc.toNat) := by
  simp only [← BitVec.toNat_inj, BitVec.reduceToNat]
  omega

/-! ## The decoder on a key of a position and a byte (R62, R64) -/

theorem headerRow_other {b : Byte} (h : otherAtHeader b) (zero ff : Instr) (other : Byte → Instr) :
    headerRow b zero ff other = other b := by
  rw [headerRow, if_neg h.1, if_neg h.2]

theorem payloadRow_other {b : Byte} (h : otherAtPayload b) (zero : Instr) (other : Byte → Instr) :
    payloadRow b zero other = other b := if_neg h

section
variable (p : Bool) (b : Byte)

theorem decodeKey_idle : decodeKey (keyOf 0 p b) = .ok (headerRow b .cobsT1 .cobsT2 .cobsT3) := by
  simp [decodeKey]

theorem decodeKey_grabHeader : decodeKey (keyOf 1 false b) = .ok (headerRow b .cobsT4 .cobsT5 .cobsT6) := by
  simp [decodeKey]

theorem decodeKey_grabPayload : decodeKey (keyOf 1 true b) = .ok (payloadRow b .cobsT7 .cobsT8) := by
  simp [decodeKey]

theorem decodeKey_grabChainHeader : decodeKey (keyOf 2 false b) = .ok (headerRow b .cobsT9 .cobsT10 .cobsT11) := by
  simp [decodeKey]

theorem decodeKey_grabChainPayload : decodeKey (keyOf 2 true b) = .ok (payloadRow b .cobsT12 .cobsT13) := by
  simp [decodeKey]

theorem decodeKey_reservedState : decodeKey (keyOf 3 p b) = .error .reservedState := by
  simp [decodeKey]

end

/-- What holds of the three rows of a header position holds of the row selected there (R63, R64). -/
theorem headerRow_ind {P : Instr → Prop} {b : Byte} {zero ff : Instr} {other : Byte → Instr} (hzero : P zero)
    (hff : P ff) (hother : otherAtHeader b → P (other b)) : P (headerRow b zero ff other) := by
  unfold headerRow
  split
  · exact hzero
  · split
    · exact hff
    · exact hother ⟨‹_›, ‹_›⟩

/-- What holds of the two rows of a payload position holds of the row selected there (R63, R64). -/
theorem payloadRow_ind {P : Instr → Prop} {b : Byte} {zero : Instr} {other : Byte → Instr} (hzero : P zero)
    (hother : otherAtPayload b → P (other b)) : P (payloadRow b zero other) := by
  unfold payloadRow
  split
  · exact hzero
  · exact hother ‹_›

/-- A key is its three fields (R64). -/
theorem keyOf_fields (k : Key) : keyOf (keyState k) (keyPositive k) (keyByte k) = k := by
  apply BitVec.eq_of_toNat_eq
  have hp : (decide (k.toNat / 256 % 2 = 1)).toNat = k.toNat / 256 % 2 := by
    rcases Nat.mod_two_eq_zero_or_one (k.toNat / 256) with h | h <;> rw [h] <;> rfl
  rw [toNat_keyOf, toNat_keyState, toNat_keyByte, keyPositive_eq, hp]
  omega

end Sys2Proof

namespace Sys2Proof.Machine

/-! ## Which words decode (R52 to R54) -/

section
variable {ε α : Type} {c : Prop} [Decidable c] {a b : α} {e : ε}

theorem ite_ok_error_eq_ok : (if c then Except.ok a else .error e) = .ok b ↔ c ∧ a = b := by
  split <;> simp [*]

theorem exists_ite_ok_error_eq_error : (∃ e', (if c then Except.ok a else .error e) = .error e') ↔ ¬c := by
  split <;> simp [*]

end

/-- The reserved words by their fields (R54). -/
theorem reservedWord_wordOf (arg : Arg) (opc : Byte) :
    ReservedWord (wordOf arg opc) ↔ opc.toNat = 0x00 ∨ 0x0A ≤ opc.toNat ∨
      ((opc.toNat = 0x01 ∨ opc.toNat = 0x02 ∨ opc.toNat = 0x09) ∧ arg ≠ 0) ∨
      (opc.toNat = 0x06 ∧ ¬ arg.toNat < 256) := by
  have hopc : (wordOf arg opc).toNat % 256 = opc.toNat := by rw [← toNat_opcodeOf, opcodeOf_wordOf]
  have harg : (wordOf arg opc).toNat / 256 = arg.toNat := by rw [← toNat_argOf, argOf_wordOf]
  have hzero : arg.toNat ≠ 0 ↔ arg ≠ 0 := (BitVec.toNat_inj (y := 0)).not
  rw [ReservedWord, hopc, harg, hzero, Nat.not_lt]

/-- Exactly the reserved words spell no command (R54). -/
theorem exists_decode_eq_error_iff (w : CmdWord) : (∃ e, decode w = .error e) ↔ ReservedWord w := by
  rw [← wordOf_fields w, reservedWord_wordOf]
  generalize argOf w = arg, opcodeOf w = opc
  rcases opcode_cases opc with rfl | rfl | rfl | rfl | rfl | rfl | rfl | rfl | rfl | hres
  · rw [decode_bufAvailRead, exists_ite_ok_error_eq_error]; simp
  · rw [decode_bufAvailWrite, exists_ite_ok_error_eq_error]; simp
  · rw [decode_bufRead]; simp
  · rw [decode_bufWrite]; simp
  · rw [decode_decReset]; simp
  · rw [decode_decFeed, exists_ite_ok_error_eq_error]; simp
  · rw [decode_decPush]; simp
  · rw [decode_readPacket]; simp
  · rw [decode_decStatus, exists_ite_ok_error_eq_error]; simp
  · rw [decode_reservedOpcode arg hres, ← or_assoc]; simp [hres]

/-! ## An instruction is never refused as reserved -/

section
variable {s : State} {e : DecodeError}

theorem withSrc_ne_reserved {len : Nat} {body : List Byte → Result}
    (hbody : ∀ bytes, body bytes ≠ .refused (.reserved e)) : withSrc len s body ≠ .refused (.reserved e) := by
  unfold withSrc
  split
  · exact hbody _
  · exact nofun

theorem withDst_ne_reserved {need : Nat} {body : Nat → Result}
    (hbody : ∀ base, body base ≠ .refused (.reserved e)) : withDst need s body ≠ .refused (.reserved e) := by
  unfold withDst
  split
  · exact hbody _
  · exact nofun

theorem withDisjoint_ne_reserved {body : Result} (hbody : body ≠ .refused (.reserved e)) :
    withDisjoint s body ≠ .refused (.reserved e) := by
  unfold withDisjoint
  split
  · exact nofun
  · exact hbody

theorem runRow_ne_reserved {selected : Bool} {row : Stepped} : runRow selected row s ≠ .refused (.reserved e) := by
  unfold runRow
  split <;> exact nofun

/-- An instruction is refused for the host's regions (R46, R61) or as a row off its key (R64), never as reserved. -/
theorem exec_ne_reserved (i : Instr) : exec i s ≠ .refused (.reserved e) := by
  cases i
  case bufAvailRead => exact nofun
  case bufAvailWrite => exact nofun
  case bufRead n =>
    unfold exec execBufRead
    exact withDst_ne_reserved fun _ => nofun
  case bufWrite n =>
    unfold exec execBufWrite
    exact withSrc_ne_reserved fun _ => nofun
  case decReset n => exact nofun
  case decFeed b =>
    unfold exec execDecFeed
    exact withDst_ne_reserved fun _ => nofun
  case decPush n =>
    unfold exec execDecPush
    exact withSrc_ne_reserved fun _ => withDst_ne_reserved fun _ => withDisjoint_ne_reserved nofun
  case readPacket n =>
    unfold exec execReadPacket
    refine withDst_ne_reserved fun _ => ?_
    split <;> exact nofun
  case decStatus => exact nofun
  case cobsT8 b => exact withDst_ne_reserved fun _ => runRow_ne_reserved
  case cobsT13 b => exact withDst_ne_reserved fun _ => runRow_ne_reserved
  all_goals exact runRow_ne_reserved

end

/-- A command word that does not decode is refused as reserved (R54). -/
theorem step_reserved {s : State} {r : Request} {rest : List HostEvent} {e : DecodeError}
    (hp : s.pending = .command r :: rest) (hl : s.line = .released) (ho : r.overlapping = false)
    (hd : decode r.word = .error e) : step s = .refused (.reserved e) := by
  simp [step, fetch, hp, hl, ho, hd, whenReleased, whenSerialized, fetchDecoded]

/-! ## The opcode table -/

theorem toNat_land_ones {n : Nat} (x : BitVec n) : x.toNat &&& (2 ^ n - 1) = x.toNat := by
  rw [Nat.and_two_pow_sub_one_eq_mod, Nat.mod_eq_of_lt x.isLt]

/-- A row covers a word when its argument and opcode fields match under their parts of the mask (R52). -/
theorem covers_wordOf (mn : String) (bits mask : Nat) (arg : Arg) (opc : Byte) :
    TableRow.covers ⟨mn, .command, bits, mask⟩ (.word (wordOf arg opc)) =
      decide ((arg.toNat &&& mask / 256) = bits / 256 ∧ (opc.toNat &&& mask % 256) = bits % 256) := by
  have harg : ((wordOf arg opc).toNat &&& mask) / 256 = arg.toNat &&& mask / 256 := by
    rw [← argOf_wordOf arg opc, toNat_argOf, argOf_wordOf]
    exact Nat.and_div_two_pow (n := 8)
  have hopc : ((wordOf arg opc).toNat &&& mask) % 256 = opc.toNat &&& mask % 256 := by
    rw [← opcodeOf_wordOf arg opc, toNat_opcodeOf, opcodeOf_wordOf]
    exact Nat.and_mod_two_pow (n := 8)
  simp only [TableRow.covers, decide_true, Bool.true_and]
  exact decide_eq_decide.2 (by omega)

/-- A row covers a key when its three fields match under their parts of the mask (R64). -/
theorem covers_keyOf (mn : String) (bits mask : Nat) (code : BitVec 2) (p : Bool) (b : Byte) :
    TableRow.covers ⟨mn, .cobsByte, bits, mask⟩ (.key (keyOf code p b)) =
      decide ((code.toNat &&& mask / 512) = bits / 512 ∧ (p.toNat &&& mask / 256 % 2) = bits / 256 % 2 ∧
        (b.toNat &&& mask % 256) = bits % 256) := by
  have hk := toNat_keyOf code p b
  have := b.isLt
  have := p.toNat_lt
  have hcode : ((keyOf code p b).toNat &&& mask) / 512 = code.toNat &&& mask / 512 := by
    rw [show code.toNat = (keyOf code p b).toNat / 512 by omega]
    exact Nat.and_div_two_pow (n := 9)
  have hp : ((keyOf code p b).toNat &&& mask) / 256 % 2 = p.toNat &&& mask / 256 % 2 := by
    rw [show p.toNat = (keyOf code p b).toNat / 256 % 2 by omega]
    exact (congrArg (· % 2) (Nat.and_div_two_pow (n := 8))).trans (Nat.and_mod_two_pow (n := 1))
  have hb : ((keyOf code p b).toNat &&& mask) % 256 = b.toNat &&& mask % 256 := by
    rw [show b.toNat = (keyOf code p b).toNat % 256 by omega]
    exact Nat.and_mod_two_pow (n := 8)
  simp only [TableRow.covers, decide_true, Bool.true_and]
  exact decide_eq_decide.2 (by omega)

/-- The mnemonic of the first row that covers an encoding. -/
def firstMnemonic (rows : List TableRow) (e : Encoded) : Option String :=
  (rows.find? (·.covers e)).map (·.mnemonic)

@[simp] theorem firstMnemonic_nil (e : Encoded) : firstMnemonic [] e = none := rfl

@[simp] theorem firstMnemonic_cons (r : TableRow) (rows : List TableRow) (e : Encoded) :
    firstMnemonic (r :: rows) e = if r.covers e then some r.mnemonic else firstMnemonic rows e := by
  rw [firstMnemonic, List.find?_cons]
  cases r.covers e <;> rfl

theorem firstMnemonic_opcodeTable_word (w : CmdWord) :
    firstMnemonic opcodeTable (.word w) = firstMnemonic commandRows (.word w) := by
  have hnone : cobsRows.find? (·.covers (.word w)) = none := by simp [cobsRows, TableRow.covers]
  rw [firstMnemonic, opcodeTable, List.find?_append, hnone, Option.or_none, firstMnemonic]

theorem firstMnemonic_opcodeTable_key (k : Key) :
    firstMnemonic opcodeTable (.key k) = firstMnemonic cobsRows (.key k) := by
  have hnone : commandRows.find? (·.covers (.key k)) = none := by simp [commandRows, TableRow.covers]
  rw [firstMnemonic, opcodeTable, List.find?_append, hnone, Option.none_or, firstMnemonic]

/-- The mask of `DEC_FEED` leaves the high half of the argument (R60). -/
theorem land_high_eq_zero_iff (arg : Arg) : arg.toNat &&& 0xFFFF00 = 0 ↔ arg.toNat < 256 := by
  have := arg.isLt
  have hhigh : (arg.toNat &&& 0xFFFF00) / 2 ^ 8 = arg.toNat / 2 ^ 8 := by
    rw [Nat.and_div_two_pow, show 0xFFFF00 / 2 ^ 8 = 2 ^ 16 - 1 from rfl, Nat.and_two_pow_sub_one_eq_mod]
    omega
  have hlow : (arg.toNat &&& 0xFFFF00) % 2 ^ 8 = 0 := by
    rw [Nat.and_mod_two_pow]; exact Nat.and_zero _
  omega

@[simp] theorem toOption_map_ok {ε α β : Type} (f : α → β) (a : α) :
    (Except.ok a : Except ε α).toOption.map f = some (f a) := rfl

@[simp] theorem toOption_map_error {ε α β : Type} (f : α → β) (e : ε) :
    (Except.error e : Except ε α).toOption.map f = none := rfl

/-- A command word decodes by the first row that covers it (R53). -/
theorem mnemonicOf_decode (w : CmdWord) :
    (decode w).toOption.map mnemonicOf = firstMnemonic opcodeTable (.word w) := by
  rw [firstMnemonic_opcodeTable_word, ← wordOf_fields w]
  generalize argOf w = arg, opcodeOf w = opc
  have hopc : opc.toNat &&& 0xFF = opc.toNat := toNat_land_ones opc
  have harg : arg.toNat &&& 0xFFFFFF = 0 ↔ arg = 0#24 := by
    rw [show arg.toNat &&& 0xFFFFFF = arg.toNat from toNat_land_ones arg, ← BitVec.toNat_inj]; rfl
  simp only [commandRows, firstMnemonic_cons, firstMnemonic_nil, covers_wordOf, Nat.reduceMod, Nat.reduceDiv,
    Nat.and_zero, true_and, land_high_eq_zero_iff, hopc, harg, decide_eq_true_eq]
  clear hopc harg
  rcases opcode_cases opc with rfl | rfl | rfl | rfl | rfl | rfl | rfl | rfl | rfl | hres
  · rw [decode_bufAvailRead]; split <;> simp [*, mnemonicOf]
  · rw [decode_bufAvailWrite]; split <;> simp [*, mnemonicOf]
  · rw [decode_bufRead]; simp [mnemonicOf]
  · rw [decode_bufWrite]; simp [mnemonicOf]
  · rw [decode_decReset]; simp [mnemonicOf]
  · rw [decode_decFeed]; split <;> simp [*, mnemonicOf]
  · rw [decode_decPush]; simp [mnemonicOf]
  · rw [decode_readPacket]; simp [mnemonicOf]
  · rw [decode_decStatus]; split <;> simp [*, mnemonicOf]
  · rw [decode_reservedOpcode arg hres]
    have hne : ∀ n, 1 ≤ n → n ≤ 9 → opc.toNat ≠ n := by omega
    simp [hne]

theorem mnemonicOf_headerRow (b : Byte) (zero ff : Instr) (other : Byte → Instr) :
    mnemonicOf (headerRow b zero ff other) =
      if b.toNat = 0x00 then mnemonicOf zero else if b.toNat = 0xFF then mnemonicOf ff else mnemonicOf (other b) := by
  simp only [headerRow, apply_ite mnemonicOf, ← BitVec.toNat_inj, BitVec.reduceToNat]

theorem mnemonicOf_payloadRow (b : Byte) (zero : Instr) (other : Byte → Instr) :
    mnemonicOf (payloadRow b zero other) = if b.toNat = 0x00 then mnemonicOf zero else mnemonicOf (other b) := by
  simp only [payloadRow, apply_ite mnemonicOf, ← BitVec.toNat_inj, BitVec.reduceToNat]

/-- A key decodes by the first row that covers it (R64). -/
theorem mnemonicOf_decodeKey (k : Key) :
    (decodeKey k).toOption.map mnemonicOf = firstMnemonic opcodeTable (.key k) := by
  rw [firstMnemonic_opcodeTable_key, ← keyOf_fields k]
  generalize keyState k = code, keyPositive k = p, keyByte k = b
  have hb : b.toNat &&& 0xFF = b.toNat := toNat_land_ones b
  simp only [cobsRows, firstMnemonic_cons, firstMnemonic_nil, covers_keyOf, Nat.reduceMod, Nat.reduceDiv,
    Nat.and_zero, true_and, and_true, hb, decide_eq_true_eq]
  have hcode : code = 0 ∨ code = 1 ∨ code = 2 ∨ code = 3 := by revert code; decide
  rcases hcode with rfl | rfl | rfl | rfl
  · rw [decodeKey_idle, toOption_map_ok, mnemonicOf_headerRow]
    simp [apply_ite some, mnemonicOf]
  · cases p
    · rw [decodeKey_grabHeader, toOption_map_ok, mnemonicOf_headerRow]
      simp [apply_ite some, mnemonicOf]
    · rw [decodeKey_grabPayload, toOption_map_ok, mnemonicOf_payloadRow]
      simp [apply_ite some, mnemonicOf]
  · cases p
    · rw [decodeKey_grabChainHeader, toOption_map_ok, mnemonicOf_headerRow]
      simp [apply_ite some, mnemonicOf]
    · rw [decodeKey_grabChainPayload, toOption_map_ok, mnemonicOf_payloadRow]
      simp [apply_ite some, mnemonicOf]
  · rw [decodeKey_reservedState]
    simp

/-! ## The rows of a byte (R62 to R64) -/

/-- The five kinds of position a byte can come at: `DS` and, in a packet, whether `DR = 0` (R62). -/
inductive BytePosition
  | idle
  | grabHeader
  | grabPayload
  | grabChainHeader
  | grabChainPayload

/-- A decoder is at the position. -/
def BytePosition.Of (d : Decoder) : BytePosition → Prop
  | .idle => d.ds = .idle
  | .grabHeader => d.ds = .grab ∧ d.dr = 0
  | .grabPayload => d.ds = .grab ∧ 0 < d.dr
  | .grabChainHeader => d.ds = .grabChain ∧ d.dr = 0
  | .grabChainPayload => d.ds = .grabChain ∧ 0 < d.dr

/-- A decoder is at exactly one position. -/
theorem Decoder.existsUnique_position (d : Decoder) : ∃! p : BytePosition, p.Of d := by
  obtain ⟨ds, dr, di, dl⟩ := d
  rcases Nat.eq_zero_or_pos dr with hr | hr
  · cases ds
    · exact ⟨.idle, rfl, by rintro (_ | _ | _ | _ | _) <;> simp [BytePosition.Of]⟩
    · exact ⟨.grabHeader, ⟨rfl, hr⟩, by rintro (_ | _ | _ | _ | _) <;> simp [BytePosition.Of, hr]⟩
    · exact ⟨.grabChainHeader, ⟨rfl, hr⟩, by rintro (_ | _ | _ | _ | _) <;> simp [BytePosition.Of, hr]⟩
  · cases ds
    · exact ⟨.idle, rfl, by rintro (_ | _ | _ | _ | _) <;> simp [BytePosition.Of]⟩
    · exact ⟨.grabPayload, ⟨rfl, hr⟩, by rintro (_ | _ | _ | _ | _) <;> simp [BytePosition.Of, hr.ne']⟩
    · exact ⟨.grabChainPayload, ⟨rfl, hr⟩, by rintro (_ | _ | _ | _ | _) <;> simp [BytePosition.Of, hr.ne']⟩

/-- The row of a byte at a position (R64). -/
def rowAt (b : Byte) : BytePosition → Instr
  | .idle => headerRow b .cobsT1 .cobsT2 .cobsT3
  | .grabHeader => headerRow b .cobsT4 .cobsT5 .cobsT6
  | .grabPayload => payloadRow b .cobsT7 .cobsT8
  | .grabChainHeader => headerRow b .cobsT9 .cobsT10 .cobsT11
  | .grabChainPayload => payloadRow b .cobsT12 .cobsT13

/-- The rows of a byte are its rows at the five positions. -/
theorem rowsOnByte_eq (b : Byte) :
    rowsOnByte b = [rowAt b .idle, rowAt b .grabHeader, rowAt b .grabPayload, rowAt b .grabChainHeader,
      rowAt b .grabChainPayload] := by
  unfold rowsOnByte rowAt headerRow payloadRow
  split_ifs <;> simp_all

theorem mem_rowsOnByte_iff {b : Byte} {i : Instr} : i ∈ rowsOnByte b ↔ ∃ p, rowAt b p = i := by
  rw [rowsOnByte_eq]
  simp only [List.mem_cons, List.not_mem_nil, or_false]
  constructor
  · rintro (rfl | rfl | rfl | rfl | rfl) <;> exact ⟨_, rfl⟩
  · rintro ⟨_ | _ | _ | _ | _, rfl⟩ <;> simp

/-- A row completes exactly under the condition, and is refused as not selected otherwise. -/
def RunsExactlyWhen (c : Prop) (r : Result) : Prop :=
  (c → ∃ t, r = .next t) ∧ (¬c → r = .refused .rowNotSelected)

theorem runsExactlyWhen_runRow {c selected : Prop} [Decidable selected] (row : Stepped) (s : State)
    (h : selected ↔ c) : RunsExactlyWhen c (runRow (decide selected) row s) :=
  ⟨fun hc => ⟨_, if_pos (decide_eq_true (h.2 hc))⟩, fun hc => if_neg fun hsel => hc (h.1 (of_decide_eq_true hsel))⟩

/-- With room in `DST`, the row of a position runs exactly when the decoder is there (R64). -/
theorem exec_rowAt {s : State} (h : s.dec.dl ≤ s.dst.cap) (b : Byte) (p : BytePosition) :
    RunsExactlyWhen (p.Of s.dec) (exec (rowAt b p) s) := by
  cases p
  case idle =>
    exact headerRow_ind (P := fun i => RunsExactlyWhen _ (exec i s)) (runsExactlyWhen_runRow _ _ Iff.rfl)
      (runsExactlyWhen_runRow _ _ Iff.rfl) fun hb => runsExactlyWhen_runRow _ _ (and_iff_left hb)
  case grabHeader =>
    exact headerRow_ind (P := fun i => RunsExactlyWhen _ (exec i s)) (runsExactlyWhen_runRow _ _ Iff.rfl)
      (runsExactlyWhen_runRow _ _ Iff.rfl) fun hb => runsExactlyWhen_runRow _ _ (and_congr_right' (and_iff_left hb))
  case grabPayload =>
    refine payloadRow_ind (P := fun i => RunsExactlyWhen _ (exec i s)) (runsExactlyWhen_runRow _ _ Iff.rfl) fun hb => ?_
    rw [exec, execCobsT8, withDst_of_le h]
    exact runsExactlyWhen_runRow _ _ (and_congr_right' (and_iff_left hb))
  case grabChainHeader =>
    exact headerRow_ind (P := fun i => RunsExactlyWhen _ (exec i s)) (runsExactlyWhen_runRow _ _ Iff.rfl)
      (runsExactlyWhen_runRow _ _ Iff.rfl) fun hb => runsExactlyWhen_runRow _ _ (and_congr_right' (and_iff_left hb))
  case grabChainPayload =>
    refine payloadRow_ind (P := fun i => RunsExactlyWhen _ (exec i s)) (runsExactlyWhen_runRow _ _ Iff.rfl) fun hb => ?_
    rw [exec, execCobsT13, withDst_of_le h]
    exact runsExactlyWhen_runRow _ _ (and_congr_right' (and_iff_left hb))

/-! ## A byte that was decoded is not zero (R68) -/

/-- A byte of memory that a step changed is not zero (R68). -/
theorem read_decStep_ne_zero (base : Nat) (b : Byte) (d : Decoder) (m : Memory) (a : Nat) :
    (decStep base b d m).mem.read a = m.read a ∨ (decStep base b d m).mem.read a ≠ some 0x00 := by
  rcases decStep_mem base b d m with hmem | ⟨hb, -, hmem, -⟩ <;> rw [hmem]
  · exact .inl rfl
  · rw [Memory.read_write]
    split
    · exact .inr (by simpa using hb)
    · exact .inl rfl

/-- The bytes a `READ_PACKET` session wrote are not zero (R68). -/
theorem State.read_packetSession_ne_zero (s : State) (destLen a : Nat) :
    (s.packetSession destLen).mem.read a = s.hostMem.read a ∨ (s.packetSession destLen).mem.read a ≠ some 0x00 := by
  rw [State.packetSession, freshFed, feedRuns_eq_feed]
  exact read_feed_ne_zero _ _ _ _ _ _

/-! ## A chunk (R65, R66) -/

/-- The decoder after a code byte that opens a run: 254 bytes for `0xFF`, otherwise one less than the byte (R65). -/
def Decoder.opened (d : Decoder) (code : Byte) : Decoder :=
  { d with ds := if code = 0xFF then .grabChain else .grab, dr := if code = 0xFF then 254 else code.toNat - 1 }

theorem Decoder.opened_ds_ne_idle (d : Decoder) (code : Byte) : (d.opened code).ds ≠ .idle := by
  unfold Decoder.opened
  split <;> exact nofun

/-- A code byte at a header position opens the run it announces (R65). -/
theorem decStep_code (base : Nat) {code : Byte} {d : Decoder} (m : Memory) (hd : d.AtHeader) (hcode : code ≠ 0x00) :
    decStep base code d m = ⟨d.opened code, m, .noData⟩ := by
  rcases decStep_cases base code d m with ⟨-, hb, -⟩ | ⟨-, hb, e⟩ | ⟨-, hb, e⟩ | ⟨-, -, hb, -⟩ | ⟨-, hb, -⟩ |
    ⟨hp, -⟩ | ⟨hp, -⟩
  · exact absurd hb hcode
  · rw [e, Decoder.opened, if_pos hb, if_pos hb]
  · rw [e, Decoder.opened, if_neg hb.2, if_neg hb.2]
  · exact absurd hb hcode
  · exact absurd hb hcode
  · exact absurd hd (not_or.2 hp)
  · exact absurd hd (not_or.2 hp)

/-- A code byte and its run, with no zero byte and room for it, are consumed whole (R65, R66, R104). -/
theorem feed_chunk (base : Nat) {d : Decoder} (m : Memory) {code : Byte} {run : List Byte} (hd : d.AtHeader)
    (hcode : code ≠ 0x00) (hlen : run.length = if code = 0xFF then 254 else code.toNat - 1)
    (hrun : ∀ x ∈ run, x ≠ 0x00) (hroom : d.di + run.length ≤ d.dl) :
    feed base d m 0 (code :: run) =
      ⟨{ d.opened code with dr := 0, di := d.di + run.length }, m.writeBytes (base + d.di) run, .exhausted,
        run.length + 1⟩ := by
  have hdr : (d.opened code).dr = run.length := hlen.symm
  calc feed base d m 0 (code :: run)
      = feed base (d.opened code) m 1 run := by rw [feed_cons, decStep_code base m hd hcode]
    _ = ⟨{ d.opened code with dr := (d.opened code).dr - run.length, di := d.di + run.length },
          m.writeBytes (base + d.di) run, .exhausted, 1 + run.length⟩ :=
        feed_run base _ m 1 run (d.opened_ds_ne_idle code) hdr.ge hrun hroom
    _ = _ := by rw [hdr, Nat.sub_self, Nat.add_comm 1]

/-! ## The obligations -/

/-- Settles O55: each instruction by the equation of its opcode, or of its position and byte class. -/
theorem decodeOfEncode : Obligations.DecodeOfEncode := by
  intro i hwf
  cases i
  case bufAvailRead => exact decode_bufAvailRead 0
  case bufAvailWrite => exact decode_bufAvailWrite 0
  case bufRead n => exact decode_bufRead n
  case bufWrite n => exact decode_bufWrite n
  case decReset n => exact decode_decReset n
  case decFeed b =>
    calc decode (wordOf (0#16 ++ b) 0x06)
        = .ok (.decFeed ((0#16 ++ b : Arg).extractLsb' 0 8)) := by
          rw [decode_decFeed, toNat_byteArgument, if_pos b.isLt]
      _ = .ok (.decFeed b) := by rw [BitVec.extractLsb'_append_eq_right]
  case decPush n => exact decode_decPush n
  case readPacket n => exact decode_readPacket n
  case decStatus => exact decode_decStatus 0
  case cobsT1 => exact decodeKey_idle false 0x00
  case cobsT2 => exact decodeKey_idle false 0xFF
  case cobsT3 b => exact (decodeKey_idle false b).trans (congrArg _ (headerRow_other hwf _ _ _))
  case cobsT4 => exact decodeKey_grabHeader 0x00
  case cobsT5 => exact decodeKey_grabHeader 0xFF
  case cobsT6 b => exact (decodeKey_grabHeader b).trans (congrArg _ (headerRow_other hwf _ _ _))
  case cobsT7 => exact decodeKey_grabPayload 0x00
  case cobsT8 b => exact (decodeKey_grabPayload b).trans (congrArg _ (payloadRow_other hwf _ _))
  case cobsT9 => exact decodeKey_grabChainHeader 0x00
  case cobsT10 => exact decodeKey_grabChainHeader 0xFF
  case cobsT11 b => exact (decodeKey_grabChainHeader b).trans (congrArg _ (headerRow_other hwf _ _ _))
  case cobsT12 => exact decodeKey_grabChainPayload 0x00
  case cobsT13 b => exact (decodeKey_grabChainPayload b).trans (congrArg _ (payloadRow_other hwf _ _))

/-- Settles O11: the decoder is at one of the five positions, and the row of a position runs there only. -/
theorem exactlyOneRowApplies : Obligations.ExactlyOneRowApplies := by
  intro s b h
  obtain ⟨p, hp, hunique⟩ := s.dec.existsUnique_position
  refine ⟨rowAt b p, mem_rowsOnByte_iff.2 ⟨p, rfl⟩, (exec_rowAt h b p).1 hp, fun j hj hne => ?_⟩
  obtain ⟨q, rfl⟩ := mem_rowsOnByte_iff.1 hj
  exact (exec_rowAt h b q).2 fun hq => hne (congrArg (rowAt b) (hunique q hq))

/-- Settles O25: the run is opened by the code byte, then emitted whole. -/
theorem chunkIsDecodedWhole : Obligations.ChunkIsDecodedWhole := by
  intro s code run hinv hcap hapart hheader hcode hlen hrun hroom hsrc
  have hfeed := feed_chunk s.dst.base s.hostMem hheader hcode hlen hrun hroom
  have hfits : run.length + 1 < 2 ^ 24 := by
    have := code.isLt
    split at hlen <;> omega
  have hexec : exec (.decPush (argOfLength (run.length + 1))) s = .next s.afterPush :=
    exec_decPush.2 ⟨by rw [toNat_argOfLength hfits, hsrc, List.length_cons], hcap, s.regionsApart_iff.1 hapart, rfl⟩
  rw [State.afterPush_eq, hsrc, hfeed] at hexec
  refine ⟨_, _, ?_, hexec, fun i hi => Memory.read_writeBytes_inside _ _ run i hi,
    fun a ha => Memory.read_writeBytes_outside _ _ run a ha⟩
  exact (reports_respond (by decide) hfits).2 ⟨rfl, rfl, rfl⟩

/-- Settles O31: every other instruction that writes host memory writes what decoder steps emit. -/
theorem decodedBytesAreNeverZero : Obligations.DecodedBytesAreNeverZero := by
  intro i s t a hi h hne
  rcases row_byte h with ⟨b, hrow⟩ | hquery | ⟨n, rfl⟩ | ⟨n, rfl⟩ | ⟨n, rfl⟩ | ⟨b, rfl⟩ | ⟨n, rfl⟩ | ⟨n, rfl⟩
  · obtain rfl := exec_row hrow h
    exact (read_decStep_ne_zero _ b _ _ a).resolve_left hne
  · simp only [List.mem_cons, List.not_mem_nil, or_false] at hquery
    rcases hquery with rfl | rfl | rfl <;> obtain rfl := Host.Outcome.next.inj h <;> exact absurd rfl hne
  · exact absurd rfl (hi n)
  · obtain ⟨-, rfl⟩ := exec_bufWrite.1 h
    exact absurd rfl hne
  · obtain rfl := Host.Outcome.next.inj h
    exact absurd rfl hne
  · obtain ⟨-, rfl⟩ := exec_decFeed.1 h
    rw [State.afterFeed_eq] at hne ⊢
    exact (read_decStep_ne_zero _ b _ _ a).resolve_left hne
  · obtain ⟨-, -, -, rfl⟩ := exec_decPush.1 h
    rw [State.afterPush_eq] at hne ⊢
    exact (read_feed_ne_zero _ _ _ _ _ a).resolve_left hne
  · obtain ⟨-, rfl⟩ := exec_readPacket.1 h
    by_cases hempty : s.rc = s.wc
    · rw [if_pos hempty] at hne
      exact absurd rfl hne
    · rw [if_neg hempty, State.finishPacket_hostMem] at hne ⊢
      exact (s.read_packetSession_ne_zero _ a).resolve_left hne

/-- Settles O43: a word that decodes runs its instruction, which is never refused as reserved. -/
theorem reservedWordsAreRefused : Obligations.ReservedWordsAreRefused := by
  intro s r rest hpending hline hserial
  rw [← exists_decode_eq_error_iff]
  constructor
  · rintro ⟨e, hrefused⟩
    cases hdecode : decode r.word with
    | error e' => exact ⟨e', rfl⟩
    | ok i => exact absurd ((step_command hpending hline hserial hdecode).symm.trans hrefused) (exec_ne_reserved i)
  · rintro ⟨e, hdecode⟩
    exact ⟨e, step_reserved hpending hline hserial hdecode⟩

/-- Settles O56: by opcode; the argument is 0, a byte or kept whole. -/
theorem encodeOfDecode : Obligations.EncodeOfDecode := by
  intro w i h
  rw [← wordOf_fields w] at h ⊢
  generalize argOf w = arg, opcodeOf w = opc at h ⊢
  rcases opcode_cases opc with rfl | rfl | rfl | rfl | rfl | rfl | rfl | rfl | rfl | hres
  · obtain ⟨rfl, rfl⟩ := ite_ok_error_eq_ok.1 ((decode_bufAvailRead arg).symm.trans h)
    exact ⟨trivial, rfl⟩
  · obtain ⟨rfl, rfl⟩ := ite_ok_error_eq_ok.1 ((decode_bufAvailWrite arg).symm.trans h)
    exact ⟨trivial, rfl⟩
  · obtain rfl := Except.ok.inj ((decode_bufRead arg).symm.trans h)
    exact ⟨trivial, rfl⟩
  · obtain rfl := Except.ok.inj ((decode_bufWrite arg).symm.trans h)
    exact ⟨trivial, rfl⟩
  · obtain rfl := Except.ok.inj ((decode_decReset arg).symm.trans h)
    exact ⟨trivial, rfl⟩
  · obtain ⟨hbyte, rfl⟩ := ite_ok_error_eq_ok.1 ((decode_decFeed arg).symm.trans h)
    exact ⟨trivial, by rw [encode, byteArgument_extractLsb' hbyte]⟩
  · obtain rfl := Except.ok.inj ((decode_decPush arg).symm.trans h)
    exact ⟨trivial, rfl⟩
  · obtain rfl := Except.ok.inj ((decode_readPacket arg).symm.trans h)
    exact ⟨trivial, rfl⟩
  · obtain ⟨rfl, rfl⟩ := ite_ok_error_eq_ok.1 ((decode_decStatus arg).symm.trans h)
    exact ⟨trivial, rfl⟩
  · simp [decode_reservedOpcode arg hres] at h

/-- Settles O57: on each of the two formats. -/
theorem decoderFollowsOpcodeTable : Obligations.DecoderFollowsOpcodeTable := by
  intro e
  cases e with
  | word w => exact mnemonicOf_decode w
  | key k => exact mnemonicOf_decodeKey k

/-- Settles O59. -/
theorem numbersOfCodes : Obligations.NumbersOfCodes := ⟨rfl, rfl, rfl⟩

end Sys2Proof.Machine

/-! PROOFS of the statements about the buffer's commands (40_buffer_ops.md): what the two queries report, where a
`BUF_WRITE` puts its bytes and which of them are unread afterwards, what a `BUF_READ` delivers, and the order of both. -/

namespace Sys2Proof.Machine

/-! ## What the commands report (R56, R110) -/

theorem State.reports_ok (s : State) {n : Nat} (hn : n < 2 ^ 24) : Reports (s.respond .ok n 0).out .ok n 0 :=
  (reports_respond hn (by decide)).2 ⟨rfl, rfl, rfl⟩

theorem State.Inv.reports_occ {s : State} (h : s.Inv) : Reports (s.respond .ok s.occ 0).out .ok s.occ 0 :=
  s.reports_ok (h.occ_lt.trans_le h.capHigh)

theorem State.Inv.reports_availWrite {s : State} (h : s.Inv) :
    Reports (s.respond .ok s.availWrite 0).out .ok s.availWrite 0 := by
  have hsum := h.occ_add_availWrite
  have hcap := h.capHigh
  have hpos := h.capPos
  exact s.reports_ok (by omega)

/-- The free space is one less than the forward distance from `WC` to `RC`, and `N - 1` when empty (R72). -/
theorem State.Inv.availWrite_eq {s : State} (h : s.Inv) :
    s.availWrite =
      if s.rc = s.wc then s.cap - 1 else if s.wc < s.rc then s.rc - s.wc - 1 else s.cap - s.wc + s.rc - 1 := by
  have hsum := h.occ_add_availWrite
  have hwc := h.wcBound
  have hrc := h.rcBound
  rw [h.occ_eq] at hsum
  split_ifs at hsum ⊢ <;> omega

/-! ## What a `BUF_WRITE` leaves unread

Let `T = U ++ SRC`. `T[j]` stands `j` steps forward of the old `RC`, unless a later byte of `T` has lapped it; the bytes
less than a lap from the end of `T` are therefore all there, and the new unread region is the last `N - 1` of them. -/

/-- A byte of `U ++ SRC` that is less than a lap from its end is in its place (R42, R73). -/
theorem State.Inv.storeByte_afterWrite {s : State} (h : s.Inv) {j : Nat} (hj : j < (s.unread ++ s.src.bytes).length)
    (hlap : s.occ + s.src.bytes.length ≤ j + s.cap) :
    (s.afterWrite s.src.bytes.length).storeByte ((s.rc + j) % s.cap) = (s.unread ++ s.src.bytes)[j] := by
  have hwc : ∀ i, (s.wc + i) % s.cap = (s.rc + (s.occ + i)) % s.cap := fun i => by
    rw [← h.rc_add_occ, Nat.mod_add_mod, Nat.add_assoc]
  have hlen : j < s.occ + s.src.bytes.length := by simpa using hj
  rcases Nat.lt_or_ge j s.occ with hold | hnew
  · have hunvisited : ∀ i < s.src.bytes.length, (s.wc + i) % s.cap ≠ (s.rc + j) % s.cap := fun i hi heq => by
      have := ring_inj ((hwc i).symm.trans heq).symm (by omega) (by omega)
      omega
    rw [List.getElem_append_left (by simpa using hold), State.getElem_unread]
    exact State.storeByte_congr (read_writeRing_outside _ _ _ _ _ hunvisited) rfl
  · obtain ⟨i, rfl⟩ := Nat.exists_eq_add_of_le hnew
    have hi : i < s.src.bytes.length := by omega
    have hlast : ∀ k, i < k → k < s.src.bytes.length → (s.wc + k) % s.cap ≠ (s.wc + i) % s.cap := fun k hik hk heq => by
      have := ring_inj heq.symm hik.le (by omega)
      omega
    have hsrc : (s.unread ++ s.src.bytes)[s.occ + i] = s.src.bytes[i] := by
      simp [List.getElem_append_right]
    rw [hsrc, ← hwc]
    exact State.storeByte_of_read (read_writeRing_last _ _ _ _ i hi hlast)

/-- A `BUF_WRITE` appends `SRC` to the unread region and drops the oldest bytes that no longer fit (R76, R77). -/
theorem State.Inv.unread_afterWrite {s : State} (h : s.Inv) :
    (s.afterWrite s.src.bytes.length).unread =
      (s.unread ++ s.src.bytes).drop (s.occ + s.src.bytes.length - (s.cap - 1)) := by
  have hpos := h.capPos
  have hocc := h.afterWrite_occ s.src.bytes.length
  refine List.ext_getElem ?_ fun k hk _ => ?_
  · rw [State.length_unread, hocc, List.length_drop, List.length_append, State.length_unread]
    omega
  · rw [State.length_unread, hocc] at hk
    rw [State.getElem_unread, List.getElem_drop, h.afterWrite_rc]
    show State.storeByte _ (_ % s.cap) = _
    rw [Nat.mod_add_mod, Nat.add_assoc]
    exact h.storeByte_afterWrite _ (by omega)

/-- A `BUF_WRITE` that fits appends `SRC` and drops nothing (R76). -/
theorem State.Inv.unread_afterWrite_of_fits {s : State} (h : s.Inv) (hfits : s.src.bytes.length ≤ s.availWrite) :
    (s.afterWrite s.src.bytes.length).unread = s.unread ++ s.src.bytes := by
  have hsum := h.occ_add_availWrite
  rw [h.unread_afterWrite, show s.occ + s.src.bytes.length - (s.cap - 1) = 0 by omega, List.drop_zero]

/-! ## What a `BUF_READ` delivers -/

/-- Bytes that stand at one place are determined by their number. -/
theorem Memory.holds_unique {m : Memory} {base : Nat} {xs ys : List Byte} (hx : m.holds base xs)
    (hy : m.holds base ys) (hlen : xs.length = ys.length) : xs = ys :=
  List.ext_getElem hlen fun i hi hi' => Option.some.inj ((hx i hi).symm.trans (hy i hi'))

/-- What a `BUF_READ` leaves in host memory: the unread bytes it delivered, in stream order (R74). -/
theorem State.hostMem_afterRead {s : State} {count : Nat} (hc : count ≤ s.occ) :
    (s.afterRead count).hostMem = s.hostMem.writeBytes s.dst.base (s.unread.take count) := by
  rw [State.afterRead_eq hc]; rfl

theorem State.holds_afterRead {s : State} {count : Nat} (hc : count ≤ s.occ) :
    (s.afterRead count).hostMem.holds s.dst.base (s.unread.take count) := by
  rw [State.hostMem_afterRead hc]
  exact fun i hi => Memory.read_writeBytes_inside _ _ _ i hi

theorem State.sameOutside_afterRead {s : State} {count : Nat} (hc : count ≤ s.occ) :
    s.hostMem.sameOutside (s.afterRead count).hostMem s.dst.base count := by
  have hlen : (s.unread.take count).length = count := by simpa using hc
  rw [State.hostMem_afterRead hc]
  exact fun a ha => Memory.read_writeBytes_outside _ _ _ a (by rwa [hlen])

theorem State.Inv.unread_afterRead {s : State} (h : s.Inv) {count : Nat} (hc : count ≤ s.occ) :
    (s.afterRead count).unread = s.unread.drop count :=
  h.unread_advance hc rfl rfl rfl rfl rfl

/-- The bytes a `BUF_READ` delivered, as many as it reports, are the front of what was unread (R74). -/
theorem State.delivered_afterRead {s : State} {n : Nat} (hn : n < 2 ^ 24) (hc : n ≤ s.occ) {count : Arg}
    {bytes : List Byte} (hout : (s.afterRead n).out = .response ⟨.ok, count, 0⟩) (hlen : bytes.length = count.toNat)
    (hholds : (s.afterRead n).hostMem.holds s.dst.base bytes) : bytes = s.unread.take n := by
  obtain ⟨-, hcount, -⟩ := (reports_respond hn (by decide)).1 ⟨_, hout, rfl, rfl, rfl⟩
  refine Memory.holds_unique hholds (State.holds_afterRead hc) ?_
  rw [hlen, hcount, List.length_take, State.length_unread, Nat.min_eq_left hc]

/-! ## Runs of writes and reads -/

/-- Along a run without overflow nothing is lost, repeated or reordered (R79). -/
theorem BufRun.delivered_append_unread {s u : State} {written delivered : List Byte} (h : s.Inv)
    (hrun : BufRun s written delivered u) : delivered ++ u.unread = s.unread ++ written := by
  induction hrun with
  | done s => simp
  | @host s u w d src dst pending _ ih =>
    have hunread : State.unread { s with src := src, dst := dst, pending := pending } = s.unread :=
      State.unread_congr rfl rfl rfl rfl rfl
    rw [ih (h.congr rfl rfl rfl rfl h.decoder h.hostWf), hunread]
  | @write s t u w d len hfits hexec _ ih =>
    obtain ⟨hlen, rfl⟩ := exec_bufWrite.1 hexec
    rw [← hlen] at hfits ih
    rw [ih h.afterWrite, h.unread_afterWrite_of_fits hfits, List.append_assoc]
  | @read s t u w d maxLen count bytes hexec hout hbytes hholds _ ih =>
    obtain ⟨-, rfl⟩ := exec_bufRead.1 hexec
    have hc : min s.occ maxLen.toNat ≤ s.occ := Nat.min_le_left _ _
    have hn : min s.occ maxLen.toNat < 2 ^ 24 := (Nat.min_le_right _ _).trans_lt maxLen.isLt
    rw [State.delivered_afterRead hn hc hout hbytes hholds, List.append_assoc, ih (h.afterRead hc),
      h.unread_afterRead hc, ← List.append_assoc, List.take_append_drop]

/-! ## The obligations -/

/-- Settles O1: the count is the occupancy, by cases on the cursors. -/
theorem bufAvailReadReportsDistance : Obligations.BufAvailReadReportsDistance := by
  refine ⟨decode_bufAvailRead 0, fun s h => ⟨_, ?_, exec_bufAvailRead s⟩⟩
  have hocc : s.occ = if s.rc = s.wc then 0 else if s.rc < s.wc then s.wc - s.rc else s.cap - s.rc + s.wc := by
    rw [h.occ_eq]
    split_ifs <;> omega
  exact hocc ▸ h.reports_occ

/-- Settles O2: the count is the free space, by cases on the cursors. -/
theorem bufAvailWriteReportsFreeSpace : Obligations.BufAvailWriteReportsFreeSpace :=
  ⟨decode_bufAvailWrite 0, fun s h => ⟨_, h.availWrite_eq ▸ h.reports_availWrite, exec_bufAvailWrite s⟩⟩

/-- Settles O3. -/
theorem capacityInvariant : Obligations.CapacityInvariant := fun s h =>
  ⟨_, _, s.occ, s.availWrite, exec_bufAvailRead s, h.reports_occ, exec_bufAvailWrite s, h.reports_availWrite,
    h.occ_add_availWrite⟩

/-- Settles O4: the copy by what it leaves at an offset it visits last, and at one it does not visit. -/
theorem bufWriteCopiesIntoRing : Obligations.BufWriteCopiesIntoRing := by
  intro s len _ hlen
  have hword : wordOf len 0x04 = len.setWidth 32 <<< 8 ||| 0x04 := wordOf_eq_or len 0x04
  have hexec : exec (.bufWrite len) s = .next (s.afterWrite len.toNat) := exec_bufWrite.2 ⟨hlen, rfl⟩
  rw [s.length_unread]
  exact ⟨hword ▸ decode_bufWrite len, writeRing s.cap s.store s.wc s.src.bytes, _, s.reports_ok len.isLt, hexec,
    fun i hi => read_writeRing_last _ _ _ _ i hi, fun a ha => read_writeRing_outside _ _ _ _ a ha⟩

/-- Settles O5: a write that fits drops nothing. -/
theorem fittingWriteLosesNothing : Obligations.FittingWriteLosesNothing := by
  intro s len h hlen hfits
  rw [s.length_unread] at hfits
  exact ⟨s.afterWrite len.toNat, exec_bufWrite.2 ⟨hlen, rfl⟩, if_neg (Nat.not_lt.2 hfits),
    hlen ▸ h.unread_afterWrite_of_fits (hlen.trans_le hfits)⟩

/-- Settles O6: the bytes that remain are those less than a lap from the end of `U ++ SRC`. -/
theorem overflowKeepsNewestBytes : Obligations.OverflowKeepsNewestBytes := by
  intro s len h hlen hover
  rw [s.length_unread] at hover
  refine ⟨s.afterWrite len.toNat, exec_bufWrite.2 ⟨hlen, rfl⟩, ?_, ?_⟩
  · rw [h.afterWrite_occ]
    omega
  · rw [← hlen, h.unread_afterWrite, lastK, List.length_append, s.length_unread]

/-- Settles O7: host memory by what the read leaves inside and outside the bytes delivered. -/
theorem bufReadCopiesFront : Obligations.BufReadCopiesFront := by
  intro s maxLen _ hdst
  have hword : wordOf maxLen 0x03 = maxLen.setWidth 32 <<< 8 ||| 0x03 := wordOf_eq_or maxLen 0x03
  have hexec : exec (.bufRead maxLen) s = .next (s.afterRead (min s.occ maxLen.toNat)) :=
    exec_bufRead.2 ⟨hdst, rfl⟩
  have hc : min s.occ maxLen.toNat ≤ s.occ := Nat.min_le_left _ _
  have htake : s.unread.take (min s.occ maxLen.toNat) = s.unread.take maxLen.toNat :=
    List.take_eq_take_iff.2 (by rw [s.length_unread]; omega)
  rw [s.length_unread]
  exact ⟨hword ▸ decode_bufRead maxLen, (s.afterRead (min s.occ maxLen.toNat)).hostMem, _,
    s.reports_ok ((Nat.min_le_right _ _).trans_lt maxLen.isLt), hexec, htake ▸ State.holds_afterRead hc,
    State.sameOutside_afterRead hc⟩

/-- Settles O9: by induction over the run; a buffer with equal cursors has nothing unread. -/
theorem readsAreFirstInFirstOut : Obligations.ReadsAreFirstInFirstOut := by
  intro s u written delivered h hrun
  have hstream := BufRun.delivered_append_unread h hrun
  refine ⟨hstream, fun hempty => ⟨u.unread, ?_⟩⟩
  have hnone : s.unread = [] := List.length_eq_zero_iff.1 (s.length_unread.trans (h.occ_eq_zero.2 hempty))
  rw [hstream, hnone, List.nil_append]

end Sys2Proof.Machine

/-! PROOFS of the statements about the COBS decoder (41_cobs_decoder.md): the rows, one step of the transition function
and what `DEC_FEED` reports of it, how a `DEC_PUSH` goes on and stops, and the round trip of an encoded payload. -/

namespace Sys2Proof.Machine

/-! ## A step by the kind of position (R62, R96)

`decStep_code` is the step of a code byte at a header position; these are the others. -/

section
variable (base : Nat) {b : Byte} {d : Decoder} (m : Memory)

theorem decStep_strayZero (hds : d.ds = .idle) :
    decStep base 0x00 d m = ⟨{ d with ds := .idle, dr := 0 }, m, .noData⟩ := by
  simp [decStep, hds, rowT1, moveTo]

theorem decStep_endOfPacket (hds : d.ds ≠ .idle) (hdr : d.dr = 0) :
    decStep base 0x00 d m = ⟨d.ended, m, .packetComplete d.di⟩ := by
  cases h : d.ds
  · exact absurd h hds
  · simp [decStep, h, hdr, rowT4, complete_eq]
  · simp [decStep, h, hdr, rowT9, complete_eq]

theorem decStep_prematureZero (hds : d.ds ≠ .idle) (hdr : 0 < d.dr) :
    decStep base 0x00 d m = ⟨d.ended, m, .error .prematureZero⟩ := by
  cases h : d.ds
  · exact absurd h hds
  · simp [decStep, h, hdr.ne', rowT7, fail_eq]
  · simp [decStep, h, hdr.ne', rowT12, fail_eq]

/-- A byte of a run is the payload of the chunk that the state is in (R87, R92). -/
theorem decStep_payload (hds : d.ds ≠ .idle) (hdr : 0 < d.dr) (hb : b ≠ 0x00) :
    decStep base b d m = payload base d.ds b d m := by
  cases h : d.ds
  · exact absurd h hds
  · rw [decStep, h]
    exact (if_neg hdr.ne').trans (if_neg hb)
  · rw [decStep, h]
    exact (if_neg hdr.ne').trans (if_neg hb)

theorem decStep_overflow (hds : d.ds ≠ .idle) (hdr : 0 < d.dr) (hb : b ≠ 0x00) (hdi : d.di = d.dl) :
    decStep base b d m = ⟨d.ended, m, .error .destOverflow⟩ := by
  rw [decStep_payload base m hds hdr hb, payload_eq, if_pos hdi]

theorem decStep_emit (hds : d.ds ≠ .idle) (hdr : 0 < d.dr) (hb : b ≠ 0x00) (hdi : d.di ≠ d.dl) :
    decStep base b d m =
      ⟨{ d with dr := d.dr - 1, di := d.di + 1 }, m.write (base + d.di) b, .emitByte b⟩ := by
  rw [decStep_payload base m hds hdr hb, payload_eq, if_neg hdi]

/-- The first byte of a packet is never an error, and nothing is emitted (R80 to R82). -/
theorem decStep_idle_result (b : Byte) (hds : d.ds = .idle) : (decStep base b d m).result = .noData := by
  by_cases hb : b = 0x00
  · rw [hb, decStep_strayZero base m hds]
  · rw [decStep_code base m (.inl hds) hb]

/-- A step from `GrabChain` is one from `Grab`, unless it emits a payload byte, which keeps its tag (R102). -/
theorem decStep_grabChain_eq_grab (h : d.dr = 0 ∨ b = 0x00 ∨ d.di = d.dl) :
    decStep base b { d with ds := .grabChain } m = decStep base b { d with ds := .grab } m := by
  have hgrab : { d with ds := .grab }.ds ≠ .idle := nofun
  have hchain : { d with ds := .grabChain }.ds ≠ .idle := nofun
  rcases Nat.eq_zero_or_pos d.dr with hdr | hdr <;> by_cases hb : b = 0x00
  · rw [hb, decStep_endOfPacket base m hgrab hdr, decStep_endOfPacket base m hchain hdr]
    rfl
  · have hheader : ∀ ds, { d with ds := ds }.AtHeader := fun _ => .inr hdr
    rw [decStep_code base m (hheader .grab) hb, decStep_code base m (hheader .grabChain) hb]
    rfl
  · rw [hb, decStep_prematureZero base m hgrab hdr, decStep_prematureZero base m hchain hdr]
    rfl
  · have hdi : d.di = d.dl := (h.resolve_left hdr.ne').resolve_left hb
    rw [decStep_overflow base m hgrab hdr hb hdi, decStep_overflow base m hchain hdr hb hdi]
    rfl

end

/-! ## The row of a key (R64) -/

theorem BytePosition.Of.decodeKey {d : Decoder} {p : BytePosition} (h : p.Of d) (b : Byte) :
    decodeKey (d.key b) = .ok (rowAt b p) := by
  rw [decodeKey_key]
  cases p
  case idle => rw [show d.ds = _ from h]; rfl
  case grabHeader => rw [h.1, h.2]; rfl
  case grabPayload => rw [h.1]; exact congrArg _ (if_pos h.2)
  case grabChainHeader => rw [h.1, h.2]; rfl
  case grabChainPayload => rw [h.1]; exact congrArg _ (if_pos h.2)

/-- With room in `DST`, the row of the decoder's position leaves what the transition function leaves (R96). -/
theorem BytePosition.Of.exec_rowAt {s : State} {p : BytePosition} (h : p.Of s.dec) (hroom : s.dec.dl ≤ s.dst.cap)
    (b : Byte) : exec (rowAt b p) s = .next (s.afterRow (decStep s.dst.base b s.dec s.hostMem)) := by
  obtain ⟨t, ht⟩ := (Machine.exec_rowAt hroom b p).1 h
  exact ht.trans (congrArg _ (exec_row (mem_rowsOnByte_iff.2 ⟨p, rfl⟩) ht))

/-! ## What `DEC_FEED` and `DEC_PUSH` report (R56, R99, R100) -/

/-- The code that reports a step's result (R99). -/
def StepResult.code : StepResult → RespCode
  | .noData => .noData
  | .emitByte _ => .emit
  | .packetComplete _ => .complete
  | .error _ => .error

/-- `V0` for a step's result (R99). -/
def StepResult.value : StepResult → Nat
  | .noData => 0
  | .emitByte b => b.toNat
  | .packetComplete l => l
  | .error k => k.number

/-- The code that reports how a push stopped (R100). -/
def FeedStop.code : FeedStop → RespCode
  | .exhausted => .pushIncomplete
  | .complete _ => .pushComplete
  | .error _ => .pushError

/-- `V0` for how a push stopped (R100). -/
def FeedStop.value : FeedStop → Nat
  | .exhausted => 0
  | .complete l => l
  | .error k => k.number

/-- The state that keeps what a step leaves and reports its result (R99). -/
def State.fedStep (s : State) (r : Stepped) : State :=
  (s.withStep r.dec r.mem).respond r.result.code r.result.value 0

/-- The state that keeps what feeding leaves and reports how it stopped (R100). -/
def State.pushed (s : State) (f : Fed) : State :=
  (s.withStep f.dec f.mem).respond f.stop.code f.stop.value f.consumed

theorem State.afterFeed_eq_fedStep (s : State) (b : Byte) :
    s.afterFeed b = s.fedStep (decStep s.dst.base b s.dec s.hostMem) := by
  unfold State.afterFeed State.fedStep
  cases (decStep s.dst.base b s.dec s.hostMem).result <;> rfl

theorem State.afterPush_eq_pushed (s : State) :
    s.afterPush = s.pushed (feed s.dst.base s.dec s.hostMem 0 s.src.bytes) := by
  unfold State.afterPush State.pushed
  cases (feed s.dst.base s.dec s.hostMem 0 s.src.bytes).stop <;> rfl

/-- `DEC_FEED` with room in `DST`. -/
theorem exec_decFeed_eq {s : State} (hroom : s.dec.dl ≤ s.dst.cap) (b : Byte) :
    exec (.decFeed b) s = .next (s.fedStep (decStep s.dst.base b s.dec s.hostMem)) :=
  exec_decFeed.2 ⟨hroom, (s.afterFeed_eq_fedStep b).symm⟩

/-- `DEC_PUSH` of the whole `SRC`, with the regions the host owes. -/
theorem exec_decPush_eq {s : State} (hroom : s.dec.dl ≤ s.dst.cap) (hapart : s.RegionsApart)
    (hfits : s.src.bytes.length < 2 ^ 24) :
    exec (.decPush (argOfLength s.src.bytes.length)) s =
      .next (s.pushed (feed s.dst.base s.dec s.hostMem 0 s.src.bytes)) :=
  exec_decPush.2 ⟨(toNat_argOfLength hfits).symm, hroom, s.regionsApart_iff.1 hapart, s.afterPush_eq_pushed.symm⟩

/-- A response reports the numbers it was built from (R55, R110). -/
theorem State.reports_responded (s : State) (code : RespCode) {v0 v1 : Nat} (h0 : v0 < 2 ^ 24) (h1 : v1 < 2 ^ 24) :
    Reports (s.respond code v0 v1).out code v0 v1 :=
  (reports_respond h0 h1).2 ⟨rfl, rfl, rfl⟩

theorem ErrorKind.number_lt (k : ErrorKind) : k.number < 2 ^ 24 := by
  have := k.number_eq
  omega

/-- What a step from a good decoder reports fits its field (R110). -/
theorem value_decStep_lt (base : Nat) (b : Byte) {d : Decoder} (m : Memory) (h : d.Inv) :
    (decStep base b d m).result.value < 2 ^ 24 := by
  have hdi := h.indexBound.trans_lt h.lengthBound
  have hb := b.isLt
  rcases decStep_cases base b d m with ⟨-, -, e⟩ | ⟨-, -, e⟩ | ⟨-, -, e⟩ | ⟨-, -, -, e⟩ | ⟨-, -, e⟩ | ⟨-, -, -, e⟩ |
    ⟨-, -, -, e⟩ <;> rw [e] <;> simp only [StepResult.value, ErrorKind.number] <;> omega

/-- What a push from a good decoder reports fits its field (R110). -/
theorem value_feed_lt (base : Nat) {d : Decoder} (m : Memory) (n : Nat) (bs : List Byte) (h : d.Inv) :
    (feed base d m n bs).stop.value < 2 ^ 24 := by
  cases hstop : (feed base d m n bs).stop with
  | exhausted => decide
  | complete l => exact (feed_length_le h l hstop).trans_lt h.lengthBound
  | error k => exact k.number_lt

/-- What `DEC_FEED` from a good decoder reports (R99). -/
theorem State.reports_fedStep {s : State} {base : Nat} {b : Byte} {d : Decoder} {m : Memory} {c : RespCode}
    {v0 v1 : Nat} (h : d.Inv) :
    Reports (s.fedStep (decStep base b d m)).out c v0 v1 ↔ c = (decStep base b d m).result.code ∧
      v0 = (decStep base b d m).result.value ∧ v1 = 0 :=
  reports_respond (value_decStep_lt base b m h) (by decide)

/-- What a push of `SRC` from a good decoder reports (R100). -/
theorem State.reports_pushed {s : State} {base : Nat} {d : Decoder} {m : Memory} {bs : List Byte} {c : RespCode}
    {v0 v1 : Nat} (h : d.Inv) (hfits : bs.length < 2 ^ 24) :
    Reports (s.pushed (feed base d m 0 bs)).out c v0 v1 ↔ c = (feed base d m 0 bs).stop.code ∧
      v0 = (feed base d m 0 bs).stop.value ∧ v1 = (feed base d m 0 bs).consumed :=
  reports_respond (value_feed_lt base m 0 bs h)
    ((feed_consumed_le base d m 0 bs).trans_lt (by rwa [Nat.zero_add]))

/-- The code a push reports says how it stopped, whatever the values. -/
theorem State.code_of_reports_pushed {s : State} {f : Fed} {c : RespCode} {v0 v1 : Nat}
    (h : Reports (s.pushed f).out c v0 v1) : c = f.stop.code := by
  obtain ⟨r, hr, rfl, -, -⟩ := h
  obtain rfl := PortOut.response.inj hr
  rfl

/-- The fields of `STATUS`'s `V0` do not overlap (R56, R58). -/
theorem statusWord_eq (d : Decoder) : statusWord d = d.ds.code.toNat + 256 * d.dr := by
  have hcode : d.ds.code.toNat < 2 ^ 8 := d.ds.code.isLt.trans (by decide)
  rw [statusWord, Nat.lor_comm, ← Nat.shiftLeft_add_eq_or_of_lt hcode, Nat.shiftLeft_eq]
  omega

theorem StepResult.eq_of_code_complete {r : StepResult} (h : r.code = .complete) : r = .packetComplete r.value := by
  cases r <;> simp only [StepResult.code, reduceCtorEq] at h
  rfl

theorem StepResult.eq_of_code_error {r : StepResult} (h : r.code = .error) : ∃ k, r = .error k := by
  cases r <;> simp only [StepResult.code, reduceCtorEq] at h
  exact ⟨_, rfl⟩

theorem FeedStop.code_eq_pushIncomplete {r : FeedStop} : r.code = .pushIncomplete ↔ r = .exhausted := by
  cases r <;> simp [FeedStop.code]

theorem FeedStop.eq_of_code_pushComplete {r : FeedStop} (h : r.code = .pushComplete) : r = .complete r.value := by
  cases r <;> simp only [FeedStop.code, reduceCtorEq] at h
  rfl

/-! ## How a push goes on, and where it stops (R100, R106, R107) -/

section
variable {base : Nat} {b : Byte} {d : Decoder} {m : Memory} {n : Nat}

/-- After a byte with no end, feeding goes on with the rest. -/
theorem feed_cons_of_code (bs : List Byte)
    (h : (decStep base b d m).result.code = .noData ∨ (decStep base b d m).result.code = .emit) :
    feed base d m n (b :: bs) = feed base (decStep base b d m).dec (decStep base b d m).mem (n + 1) bs := by
  rw [feed_cons]
  generalize (decStep base b d m).result = r at h ⊢
  cases r
  case noData => rfl
  case emitByte => rfl
  case packetComplete => exact h.elim nofun nofun
  case error => exact h.elim nofun nofun

/-- Feeding that stopped is not affected by further bytes (R107). -/
theorem feed_append_of_stopped {xs : List Byte} (ys : List Byte) (h : (feed base d m n xs).stop ≠ .exhausted) :
    feed base d m n (xs ++ ys) = feed base d m n xs := by
  rw [feed_append]
  cases hstop : (feed base d m n xs).stop
  · exact absurd hstop h
  · rfl
  · rfl

/-- Feeding that is exhausted goes on with further bytes (R106). -/
theorem feed_append_of_exhausted {xs : List Byte} (ys : List Byte) (h : (feed base d m 0 xs).stop = .exhausted) :
    feed base d m 0 (xs ++ ys) = feed base (feed base d m 0 xs).dec (feed base d m 0 xs).mem xs.length ys := by
  rw [feed_append, h, feed_consumed_of_exhausted h, Nat.zero_add]

/-- Zeros change nothing between packets (R109). -/
theorem feed_zeros (k : Nat) (hds : d.ds = .idle) (hdr : d.dr = 0) :
    feed base d m n (List.replicate k 0x00) = ⟨d, m, .exhausted, n + k⟩ := by
  have hstep : decStep base 0x00 d m = ⟨d, m, .noData⟩ := by
    rw [decStep_strayZero base m hds, ← hds, ← hdr]
  induction k generalizing n with
  | zero => rfl
  | succ k ih => rw [List.replicate_succ, feed_cons, hstep, Nat.add_comm k, ← Nat.add_assoc]; exact ih

end

/-- A part of `SRC` stands apart from `DST` as the whole does (R46). -/
theorem State.RegionsApart.part {s : State} (h : s.RegionsApart) {base : Nat} {bytes : List Byte}
    (hlow : s.src.base ≤ base) (hhigh : base + bytes.length ≤ s.src.base + s.src.bytes.length) :
    { s with src := ⟨base, bytes⟩ }.RegionsApart :=
  fun a ⟨⟨hfrom, hto⟩, hdst⟩ => h a ⟨⟨hlow.trans hfrom, hto.trans_le hhigh⟩, hdst⟩

/-- A push that has fed `k` bytes is the push of the bytes that remain, from the decoder and the memory it has by then,
with `k` more consumed (R100, R106). -/
theorem exec_decPush_resume {s : State} {d : Decoder} {m : Memory} {k : Nat} {rest : List Byte} (out : PortOut)
    (hinv : d.Inv) (hdl : d.dl = s.dec.dl) (hroom : s.dec.dl ≤ s.dst.cap) (hapart : s.RegionsApart)
    (hlen : s.src.bytes.length = k + rest.length) (hfits : s.src.bytes.length < 2 ^ 24)
    (hfeed : feed s.dst.base s.dec s.hostMem 0 s.src.bytes = feed s.dst.base d m k rest) :
    ∃ (u : State) (c : RespCode) (v0 v1 : Nat) (o : PortOut),
      exec (.decPush (argOfLength rest.length))
        { s with dec := d, hostMem := m, src := ⟨s.src.base + k, rest⟩, out := out } = .next u ∧
      Reports u.out c v0 v1 ∧ Reports o c v0 (v1 + k) ∧
      exec (.decPush (argOfLength s.src.bytes.length)) s = .next { u with src := s.src, out := o } := by
  have hrest : rest.length < 2 ^ 24 := by omega
  have hshift := feed_shift s.dst.base d m 0 k rest
  rw [Nat.zero_add, ← hfeed] at hshift
  have hcount : (feed s.dst.base d m 0 rest).consumed + k < 2 ^ 24 := by
    have := feed_consumed_le s.dst.base d m 0 rest
    omega
  have hwhole := exec_decPush_eq hroom hapart hfits
  rw [hshift] at hwhole
  have hpart : { s with src := ⟨s.src.base + k, rest⟩ }.RegionsApart :=
    hapart.part (Nat.le_add_right _ _) (by omega)
  exact ⟨_, _, _, _, _, exec_decPush_eq (hdl.trans_le hroom) hpart hrest,
    (State.reports_pushed hinv hrest).2 ⟨rfl, rfl, rfl⟩,
    s.reports_responded _ (value_feed_lt _ m 0 rest hinv) hcount, hwhole⟩

/-! ## The round trip (R105) -/

theorem Memory.writeBytes_append (m : Memory) (a : Nat) (xs ys : List Byte) :
    m.writeBytes a (xs ++ ys) = (m.writeBytes a xs).writeBytes (a + xs.length) ys := by
  induction xs generalizing m a with
  | nil => rfl
  | cons x xs ih =>
    rw [List.cons_append, writeBytes_cons, writeBytes_cons, ih, List.length_cons, Nat.add_assoc, Nat.add_comm 1]

/-- From `d` the bytes `enc` complete a packet exactly at their end, with `p` appended to what the session has. -/
def DecodesTo (base : Nat) (d : Decoder) (enc p : List Byte) : Prop :=
  ∀ m : Memory, feed base d m 0 enc =
    ⟨d.ended, m.writeBytes (base + d.di) p, .complete (d.di + p.length), enc.length⟩

theorem decodesTo_delimiter {base : Nat} {d : Decoder} (hds : d.ds ≠ .idle) (hdr : d.dr = 0) :
    DecodesTo base d [0x00] [] := by
  intro m
  rw [feed_cons, decStep_endOfPacket base m hds hdr]
  rfl

/-- A chunk in front of an encoding. -/
theorem decodesTo_chunk {base : Nat} {d : Decoder} {code : Byte} {run enc p : List Byte} (hd : d.AtHeader)
    (hcode : code ≠ 0x00) (hlen : run.length = if code = 0xFF then 254 else code.toNat - 1)
    (hrun : ∀ x ∈ run, x ≠ 0x00) (hroom : d.di + run.length ≤ d.dl)
    (hrest : DecodesTo base { d.opened code with dr := 0, di := d.di + run.length } enc p) :
    DecodesTo base d (code :: run ++ enc) (run ++ p) := by
  intro m
  have hchunk := feed_chunk base m hd hcode hlen hrun hroom
  rw [feed_append, hchunk]
  simp only
  rw [← Nat.zero_add (run.length + 1), feed_shift, hrest]
  simp only [Memory.writeBytes_append, List.length_append, List.length_cons, Fed.mk.injEq, FeedStop.complete.injEq]
  exact ⟨rfl, by rw [Nat.add_assoc], by omega, by omega⟩

/-- `q` full chunks in front of what encodes the rest. -/
theorem decodesTo_cobsChunks {base : Nat} (tail : List Byte → List Byte) {q : Nat} {p : List Byte} {d : Decoder}
    (hd : d.AtHeader) (hp : ∀ x ∈ p, x ≠ 0x00) (hroom : d.di + p.length ≤ d.dl) (hq : 254 * q ≤ p.length)
    (hnone : q = 0 → DecodesTo base d (tail p) p)
    (hsome : ∀ e : Decoder, e.ds ≠ .idle → e.dr = 0 → e.di + (p.drop (254 * q)).length ≤ e.dl →
      DecodesTo base e (tail (p.drop (254 * q))) (p.drop (254 * q))) :
    DecodesTo base d (cobsChunks tail q p) p := by
  induction q generalizing p d with
  | zero => exact hnone rfl
  | succ q ih =>
    have hrun : (p.take 254).length = 254 := List.length_take_of_le (by omega)
    have hleft : (p.drop 254).length = p.length - 254 := List.length_drop
    have hskip : (p.drop 254).drop (254 * q) = p.drop (254 * (q + 1)) := by rw [List.drop_drop]; congr 1; omega
    have hrest : DecodesTo base { d.opened 0xFF with dr := 0, di := d.di + (p.take 254).length }
        (cobsChunks tail q (p.drop 254)) (p.drop 254) := by
      refine ih (.inr rfl) (fun x hx => hp x (List.mem_of_mem_drop hx)) ?_ (by omega) ?_ (hskip ▸ hsome)
      · show d.di + _ + _ ≤ d.dl
        omega
      · rintro rfl
        refine hsome _ (d.opened_ds_ne_idle 0xFF) rfl ?_
        show d.di + _ + (p.drop 254).length ≤ d.dl
        omega
    have hwhole := decodesTo_chunk hd (by decide) hrun (fun x hx => hp x (List.mem_of_mem_take hx)) (by omega) hrest
    rwa [List.take_append_drop] at hwhole

theorem length_drop_fullChunks (p : List Byte) : (p.drop (254 * (p.length / 254))).length = p.length % 254 := by
  rw [List.length_drop]
  omega

/-- The final chunk of an encoding and its delimiter. -/
theorem decodesTo_finalChunk {base : Nat} {d : Decoder} {r : List Byte} (hd : d.AtHeader) (hr : r.length < 254)
    (hz : ∀ x ∈ r, x ≠ 0x00) (hroom : d.di + r.length ≤ d.dl) :
    DecodesTo base d (BitVec.ofNat 8 (r.length + 1) :: r ++ [0x00]) r := by
  have hcode : (BitVec.ofNat 8 (r.length + 1)).toNat = r.length + 1 := by
    rw [BitVec.toNat_ofNat]
    omega
  have hne : ∀ c : Byte, c.toNat ≠ r.length + 1 → BitVec.ofNat 8 (r.length + 1) ≠ c := by
    rintro c hc rfl
    exact hc hcode
  have hchunk := decodesTo_chunk hd (hne 0x00 nofun) (run := r)
    (by rw [if_neg (hne 0xFF (by simp; omega)), hcode]; rfl) hz hroom
    (decodesTo_delimiter (base := base) (d.opened_ds_ne_idle _) rfl)
  rwa [List.append_nil] at hchunk

theorem decodesTo_cobsEncode {base : Nat} {d : Decoder} {p : List Byte} (hd : d.AtHeader) (hp : ∀ x ∈ p, x ≠ 0x00)
    (hroom : d.di + p.length ≤ d.dl) : DecodesTo base d (cobsEncode p) p := by
  refine decodesTo_cobsChunks _ hd hp hroom (Nat.mul_div_le _ _) (fun hq => ?_) fun e _ hdr hleft => ?_
  · exact decodesTo_finalChunk hd (by omega) hp hroom
  · refine decodesTo_finalChunk (.inr hdr) ?_ (fun x hx => hp x (List.mem_of_mem_drop hx)) hleft
    rw [length_drop_fullChunks]
    omega

theorem decodesTo_cobsEncodeFull {base : Nat} {d : Decoder} {p : List Byte} (hd : d.AtHeader)
    (hp : ∀ x ∈ p, x ≠ 0x00) (hroom : d.di + p.length ≤ d.dl) (hpos : 0 < p.length) (hfull : p.length % 254 = 0) :
    DecodesTo base d (cobsEncodeFull p) p := by
  refine decodesTo_cobsChunks _ hd hp hroom (Nat.mul_div_le _ _) (fun hq => ?_) fun e hds hdr _ => ?_
  · omega
  · rw [List.eq_nil_of_length_eq_zero ((length_drop_fullChunks p).trans hfull)]
    exact decodesTo_delimiter hds hdr

theorem length_cobsChunks_le {tail : List Byte → List Byte} (htail : ∀ r, (tail r).length ≤ r.length + 2) (q : Nat)
    (p : List Byte) : (cobsChunks tail q p).length ≤ p.length + q + 2 := by
  induction q generalizing p with
  | zero => exact htail p
  | succ q ih =>
    have hrest := ih (p.drop 254)
    rw [cobsChunks, List.length_append, List.length_cons, List.length_take]
    rw [List.length_drop] at hrest
    omega

/-- Either encoding of a payload of up to 508 bytes is short. -/
theorem length_encoding_lt {p enc : List Byte} (hp : p.length ≤ 2 * 254)
    (h : enc = cobsEncode p ∨ enc = cobsEncodeFull p) : enc.length < 2 ^ 24 := by
  have hle : enc.length ≤ p.length + p.length / 254 + 2 := by
    rcases h with rfl | rfl
    · exact length_cobsChunks_le (fun r => by simp) _ p
    · exact length_cobsChunks_le (fun r => by simp) _ p
  omega

/-- A fresh decoder is as a session's end leaves it (R94, R97). -/
theorem Decoder.ended_of_fresh {d : Decoder} (hds : d.ds = .idle) (hdr : d.dr = 0) (hdi : d.di = 0) : d.ended = d := by
  cases d
  simp_all [Decoder.ended]

/-! ## The obligations -/

/-- Settles O17: the decoder is at one of the five positions; its row leaves what the transition function leaves. -/
theorem decFeedRunsSelectedRow : Obligations.DecFeedRunsSelectedRow := by
  intro s b hroom
  have hbyte : (0#16 ++ b : Arg).setWidth 32 = b.setWidth 32 :=
    BitVec.eq_of_toNat_eq (by simp only [BitVec.toNat_setWidth, toNat_byteArgument])
  have hword : wordOf (0#16 ++ b) 0x06 = b.setWidth 32 <<< 8 ||| 0x06 := hbyte ▸ wordOf_eq_or (0#16 ++ b) 0x06
  obtain ⟨p, hp, -⟩ := s.dec.existsUnique_position
  refine ⟨hword ▸ decodeOfEncode (.decFeed b) trivial, rowAt b p, _, _, _, hp.decodeKey b, hp.exec_rowAt hroom b, rfl,
    exec_decFeed_eq hroom b, ?_⟩
  cases (decStep s.dst.base b s.dec s.hostMem).result with
  | noData => rfl
  | emitByte c => exact congrArg (fun v => PortOut.response ⟨.emit, v, 0⟩) (BitVec.ofNat_toNat 24 c)
  | packetComplete l => rfl
  | error k => cases k <;> rfl

/-- Settles O18: one clause for each kind of position. -/
theorem decFeedFollowsTransitionFunction : Obligations.DecFeedFollowsTransitionFunction := by
  intro s b hinv hroom
  have hreports := (State.reports_fedStep (s := s) (base := s.dst.base) (b := b) (m := s.hostMem) hinv).2
    ⟨rfl, rfl, rfl⟩
  refine ⟨_, _, _, exec_decFeed_eq hroom b, fun hds hb => ?_, fun hd hb => ?_, fun hd hz hff => ?_,
    fun hds hdr hb => ?_, fun hds hdr hb => ?_, fun hds hdr hb hdi => ?_, fun hds hdr hb hdi => ?_⟩
  · subst hb
    rw [decStep_strayZero _ _ hds] at hreports ⊢
    exact ⟨rfl, rfl, hreports⟩
  · subst hb
    rw [decStep_code _ _ hd (by decide)] at hreports ⊢
    exact ⟨rfl, rfl, hreports⟩
  · rw [decStep_code _ _ hd hz, Decoder.opened, if_neg hff, if_neg hff] at hreports ⊢
    exact ⟨rfl, rfl, hreports⟩
  · subst hb
    rw [decStep_endOfPacket _ _ hds hdr] at hreports ⊢
    exact ⟨rfl, rfl, hreports⟩
  · subst hb
    rw [decStep_prematureZero _ _ hds hdr] at hreports ⊢
    exact ⟨rfl, rfl, hreports⟩
  · rw [decStep_overflow _ _ hds hdr hb hdi] at hreports ⊢
    exact ⟨rfl, rfl, hreports⟩
  · rw [decStep_emit _ _ hds hdr hb hdi] at hreports ⊢
    exact ⟨rfl, Memory.read_write_same _ _ _, fun a ha => Memory.read_write_other _ _ (by omega), hreports⟩

/-- Settles O21: a push of a byte and more stops with the byte's step or resumes after it. -/
theorem decPushFeedsByteByByte : Obligations.DecPushFeedsByteByByte := by
  refine ⟨fun len => ?_, fun s hinv hroom hapart hfits => ⟨fun hnone => ?_, fun b bs hsrc => ?_⟩⟩
  · have hword : wordOf len 0x07 = len.setWidth 32 <<< 8 ||| 0x07 := wordOf_eq_or len 0x07
    exact hword ▸ decode_decPush len
  · have hpush := exec_decPush_eq hroom hapart hfits
    rw [hnone] at hpush
    exact ⟨_, s.reports_responded _ (by decide) (by decide), hpush⟩
  · have hpush := exec_decPush_eq hroom hapart hfits
    refine ⟨_, exec_decFeed_eq hroom b, fun l h => ?_, fun k h => ?_, fun ⟨v, h⟩ => ?_⟩
    · obtain ⟨hcode, rfl, -⟩ := (State.reports_fedStep hinv).1 h
      have hr := StepResult.eq_of_code_complete hcode.symm
      rw [hsrc, feed_cons, hr] at hpush
      rw [hsrc]
      exact ⟨_, s.reports_responded _ (value_decStep_lt _ b _ hinv) (by decide), hpush⟩
    · obtain ⟨hcode, rfl, -⟩ := (State.reports_fedStep hinv).1 h
      obtain ⟨k, hr⟩ := StepResult.eq_of_code_error hcode.symm
      rw [hsrc, feed_cons, hr] at hpush
      rw [hsrc, hr]
      exact ⟨_, s.reports_responded _ k.number_lt (by decide), hpush⟩
    · have hcode := h.imp (fun h => ((State.reports_fedStep hinv).1 h).1.symm) fun h =>
        ((State.reports_fedStep hinv).1 h).1.symm
      exact exec_decPush_resume _ (inv_decStep _ b _ hinv) (decStep_dl _ b _ _) hroom hapart
        (by rw [hsrc, List.length_cons, Nat.add_comm]) hfits (by rw [hsrc]; exact feed_cons_of_code bs hcode)

/-- Settles O23: the first part is exhausted, so the push of the whole resumes after it. -/
theorem splittingAPushChangesNothing : Obligations.SplittingAPushChangesNothing := by
  intro s t xs ys hinv hroom hapart hsrc hfits hfirst hreports
  obtain ⟨-, -, -, rfl⟩ := exec_decPush.1 hfirst
  rw [State.afterPush_eq_pushed] at hreports ⊢
  have hstop := FeedStop.code_eq_pushIncomplete.1 (State.code_of_reports_pushed hreports).symm
  exact exec_decPush_resume _ (inv_feed _ _ 0 xs hinv) (feed_dl _ _ _ _ _) hroom hapart
    (by rw [hsrc, List.length_append]) hfits (by rw [hsrc]; exact feed_append_of_exhausted ys hstop)

/-- Settles O24: the push of the whole stops where that of the first part does. -/
theorem bytesAfterAStopHaveNoEffect : Obligations.BytesAfterAStopHaveNoEffect := by
  intro s t xs ys c v0 v1 hroom hapart hsrc hfits hfirst hreports hc
  obtain ⟨-, -, -, rfl⟩ := exec_decPush.1 hfirst
  rw [State.afterPush_eq_pushed] at hreports ⊢
  have hcode := State.code_of_reports_pushed hreports
  have hstop := mt FeedStop.code_eq_pushIncomplete.2 (hcode ▸ hc)
  have hwhole := exec_decPush_eq hroom hapart hfits
  rw [hsrc, feed_append_of_stopped ys hstop] at hwhole
  rw [hsrc]
  exact hwhole

/-- Settles O26: either encoding is decoded chunk by chunk, and is short enough for one push. -/
theorem roundTripOfZeroFreePayloads : Obligations.RoundTripOfZeroFreePayloads := by
  intro s p enc hlen hzero henc hds hdr hdi hdl hroom hsrc hapart
  have hdecodes : DecodesTo s.dst.base s.dec enc p := by
    rcases henc with rfl | ⟨hpos, hfull, rfl⟩
    · exact decodesTo_cobsEncode (.inl hds) hzero (by omega)
    · exact decodesTo_cobsEncodeFull (.inl hds) hzero (by omega) hpos hfull
  have hfits : enc.length < 2 ^ 24 := length_encoding_lt hlen (henc.imp_right fun ⟨_, _, h⟩ => h)
  have hpush := exec_decPush_eq hroom hapart (hsrc ▸ hfits)
  rw [hsrc, hdecodes, Decoder.ended_of_fresh hds hdr hdi, hdi, Nat.zero_add, Nat.add_zero] at hpush
  exact ⟨_, _, s.reports_responded _ (by omega) hfits, hpush,
    fun i hi => Memory.read_writeBytes_inside _ _ p i hi, fun a ha => Memory.read_writeBytes_outside _ _ p a ha⟩

/-- Settles O27: the two steps are one and the same, or both emit. -/
theorem grabAndGrabChainAlike : Obligations.GrabAndGrabChainAlike := by
  intro s b hroom
  have hgrab := exec_decFeed_eq (s := { s with dec := { s.dec with ds := .grab } }) hroom b
  have hchain := exec_decFeed_eq (s := { s with dec := { s.dec with ds := .grabChain } }) hroom b
  by_cases hsame : s.dec.dr = 0 ∨ b = 0x00 ∨ s.dec.di = s.dec.dl
  · rw [decStep_grabChain_eq_grab _ _ hsame] at hchain
    exact ⟨_, _, hgrab, hchain, rfl, rfl, rfl, rfl, rfl, .inl rfl⟩
  · obtain ⟨hdr, hb, hdi⟩ := not_or.1 hsame |>.imp_right not_or.1
    have hpos := Nat.pos_of_ne_zero hdr
    rw [decStep_emit _ _ (d := { s.dec with ds := .grab }) nofun hpos hb hdi] at hgrab
    rw [decStep_emit _ _ (d := { s.dec with ds := .grabChain }) nofun hpos hb hdi] at hchain
    exact ⟨_, _, hgrab, hchain, rfl, rfl, rfl, rfl, rfl, .inr ⟨hpos, hb, hdi, rfl, rfl⟩⟩

/-- Settles O28: the first byte of a push from a fresh decoder is consumed, and a completing byte counts too. -/
theorem freshSessionsMakeProgress : Obligations.FreshSessionsMakeProgress := by
  intro s t hds hdr hdi hdl
  have hinv : s.dec.Inv := ⟨fun _ => hdr, by omega, by omega, hdl⟩
  refine ⟨fun b h => ?_, fun len v0 v1 h => ?_⟩
  · obtain ⟨-, rfl⟩ := exec_decFeed.1 h
    rw [State.afterFeed_eq_fedStep, State.reports_fedStep hinv, decStep_idle_result _ _ b hds]
    exact ⟨rfl, rfl, rfl⟩
  · obtain ⟨hlen, -, -, rfl⟩ := exec_decPush.1 h
    rw [State.afterPush_eq_pushed, State.reports_pushed hinv (hlen ▸ len.isLt),
      State.reports_pushed hinv (hlen ▸ len.isLt)]
    cases s.src.bytes with
    | nil => exact ⟨nofun, nofun⟩
    | cons b bs =>
      rw [feed_cons, decStep_idle_result _ _ b hds]
      obtain ⟨hge, hcomplete⟩ := feed_consumed_ge s.dst.base (decStep s.dst.base b s.dec s.hostMem).dec
        (decStep s.dst.base b s.dec s.hostMem).mem (0 + 1) bs
      exact ⟨fun ⟨_, _, h⟩ => h ▸ hge,
        fun ⟨hcode, _, h⟩ => h ▸ hcomplete _ (FeedStop.eq_of_code_pushComplete hcode.symm)⟩

/-- Settles O29. -/
theorem zerosAloneNeverComplete : Obligations.ZerosAloneNeverComplete := by
  intro s n hds hdr hn hroom hsrc hapart
  have hlen : s.src.bytes.length = n := by rw [hsrc, List.length_replicate]
  have hpush := exec_decPush_eq hroom hapart (hlen ▸ hn)
  rw [hlen, hsrc, feed_zeros n hds hdr, Nat.zero_add] at hpush
  exact ⟨_, s.reports_responded _ (by decide) hn, hpush⟩

/-- Settles O12. -/
theorem strayZeroRowStaysIdle : Obligations.StrayZeroRowStaysIdle := fun _ hds =>
  runRow_eq_next.2 ⟨decide_eq_true hds, rfl⟩

/-- Settles O13: the bytes in question are those of the class of the rows T3, T6 and T11. -/
theorem codeByteRowsOpenRuns : Obligations.CodeByteRowsOpenRuns := by
  intro s b hlow hhigh
  have hb : otherAtHeader b := by
    constructor
    · rintro rfl
      exact absurd hlow (by decide)
    · rintro rfl
      exact absurd hhigh (by decide)
  refine ⟨fun hds => ⟨?_, ?_⟩, fun hds hdr => ⟨?_, ?_⟩, fun hds hdr => ⟨?_, ?_⟩⟩
  · exact runRow_eq_next.2 ⟨decide_eq_true hds, rfl⟩
  · exact runRow_eq_next.2 ⟨decide_eq_true ⟨hds, hb⟩, rfl⟩
  · exact runRow_eq_next.2 ⟨decide_eq_true ⟨hds, hdr⟩, rfl⟩
  · exact runRow_eq_next.2 ⟨decide_eq_true ⟨hds, hdr, hb⟩, rfl⟩
  · exact runRow_eq_next.2 ⟨decide_eq_true ⟨hds, hdr⟩, rfl⟩
  · exact runRow_eq_next.2 ⟨decide_eq_true ⟨hds, hdr, hb⟩, rfl⟩

/-- Settles O14. -/
theorem endRowsCompletePacket : Obligations.EndRowsCompletePacket := fun _ hdr =>
  ⟨fun hds => runRow_eq_next.2 ⟨decide_eq_true ⟨hds, hdr⟩, rfl⟩,
    fun hds => runRow_eq_next.2 ⟨decide_eq_true ⟨hds, hdr⟩, rfl⟩⟩

/-- Settles O15. -/
theorem prematureZeroRowsFail : Obligations.PrematureZeroRowsFail := fun _ hdr =>
  ⟨fun hds => runRow_eq_next.2 ⟨decide_eq_true ⟨hds, hdr⟩, rfl⟩,
    fun hds => runRow_eq_next.2 ⟨decide_eq_true ⟨hds, hdr⟩, rfl⟩⟩

/-- Settles O16: both rows are the payload row of the decoder's position. -/
theorem payloadRowsEmit : Obligations.PayloadRowsEmit := by
  intro s b hlow hdr hroom i hi
  have hb : b ≠ 0x00 := by
    rintro rfl
    exact absurd hlow (by decide)
  have hds : s.dec.ds ≠ .idle := by
    rcases hi with ⟨hds, -⟩ | ⟨hds, -⟩ <;> rw [hds] <;> exact nofun
  have hrow : exec i s = .next (s.afterRow (decStep s.dst.base b s.dec s.hostMem)) := by
    rcases hi with ⟨hds, rfl⟩ | ⟨hds, rfl⟩
    · exact payloadRow_other hb .cobsT7 .cobsT8 ▸ BytePosition.Of.exec_rowAt (p := .grabPayload) ⟨hds, hdr⟩ hroom b
    · exact payloadRow_other hb .cobsT12 .cobsT13 ▸
        BytePosition.Of.exec_rowAt (p := .grabChainPayload) ⟨hds, hdr⟩ hroom b
  refine ⟨fun hdi => ?_, fun hdi => ?_⟩
  · rw [decStep_emit _ _ hds hdr hb hdi] at hrow
    exact ⟨_, hrow, Memory.read_write_same _ _ _, fun a ha => Memory.read_write_other _ _ (by omega)⟩
  · rw [decStep_overflow _ _ hds hdr hb hdi] at hrow
    exact hrow

/-- Settles O19. -/
theorem decResetStartsFreshSession : Obligations.DecResetStartsFreshSession := by
  intro s destLen
  have hword : wordOf destLen 0x05 = destLen.setWidth 32 <<< 8 ||| 0x05 := wordOf_eq_or destLen 0x05
  exact ⟨hword ▸ decode_decReset destLen, _, s.reports_ok (by decide), exec_decReset destLen s⟩

/-- Settles O20: both values fit their fields. -/
theorem decStatusReportsRegisters : Obligations.DecStatusReportsRegisters := by
  refine ⟨decode_decStatus 0, fun s h => ⟨_, ?_, exec_decStatus s⟩⟩
  have hlt := s.dec.ds.code.isLt
  have hrun := h.runBound
  rw [statusWord_eq]
  exact (reports_respond (s := s) (by omega) (h.indexBound.trans_lt h.lengthBound)).2
    ⟨rfl, congrArg (· + 256 * s.dec.dr) (by cases s.dec.ds <;> rfl), rfl⟩

end Sys2Proof.Machine

/-! PROOFS of the statements about the framed reader (42_framed_reader.md): from a good state a `READ_PACKET` is one feed
of the unread region to a fresh session, and every statement is read off that feed. -/

namespace Sys2Proof.Machine

/-! ## Feeding the same bytes again

A session that runs anew over the memory it left writes the same bytes there (R125). -/

theorem feed_again (base : Nat) (d : Decoder) {m : Memory} (n : Nat) (bs : List Byte) (hm : m.wf) :
    feed base d (feed base d m n bs).mem n bs = feed base d m n bs := by
  obtain ⟨hdec, hstop, hcount, hread⟩ := feed_memory base d m (feed base d m n bs).mem n bs
  have hmem : (feed base d (feed base d m n bs).mem n bs).mem = (feed base d m n bs).mem :=
    Memory.ext (wf_feed _ _ _ _ (wf_feed _ _ _ _ hm)) (wf_feed _ _ _ _ hm) fun a => (hread a).elim id And.left
  exact (Fed.mk.injEq ..).mpr ⟨hdec, hmem, hstop, hcount⟩

/-- Feeding more than before, from the first byte again, gives what it would have given the first time. -/
theorem feed_again_append (base : Nat) (d : Decoder) {m : Memory} (n : Nat) (xs ys : List Byte) (hm : m.wf) :
    feed base d (feed base d m n xs).mem n (xs ++ ys) = feed base d m n (xs ++ ys) := by
  rw [feed_append, feed_again base d n xs hm, ← feed_append]

/-! ## What `READ_PACKET` reports (R56, R112, R117, R118, R120) -/

/-- The code that reports how the session over these unread bytes stopped. -/
def FeedStop.packetCode (unread : List Byte) : FeedStop → RespCode
  | .exhausted => if unread = [] then .rpNoBytes else .rpIncomplete
  | .complete _ => .rpOk
  | .error _ => .rpCorrupt

/-- How far the read cursor moves: an incomplete session moves it nowhere (R120). -/
def Fed.packetAdvance (f : Fed) : Nat := if f.stop = .exhausted then 0 else f.consumed

theorem Fed.packetAdvance_of_exhausted {f : Fed} (h : f.stop = .exhausted) : f.packetAdvance = 0 := if_pos h

theorem Fed.packetAdvance_of_complete {f : Fed} {l : Nat} (h : f.stop = .complete l) : f.packetAdvance = f.consumed :=
  if_neg (by rw [h]; nofun)

theorem Fed.packetAdvance_of_error {f : Fed} {k : ErrorKind} (h : f.stop = .error k) : f.packetAdvance = f.consumed :=
  if_neg (by rw [h]; nofun)

theorem Fed.packetAdvance_le (f : Fed) : f.packetAdvance ≤ f.consumed := by
  unfold Fed.packetAdvance
  split
  · exact Nat.zero_le _
  · exact Nat.le_refl _

section
variable {unread : List Byte} {r : FeedStop}

theorem FeedStop.packetCode_exhausted :
    FeedStop.exhausted.packetCode unread = if unread = [] then .rpNoBytes else .rpIncomplete := rfl

theorem FeedStop.eq_of_packetCode_rpOk (h : r.packetCode unread = .rpOk) : r = .complete r.value := by
  cases r with
  | exhausted => rw [packetCode_exhausted] at h; split at h <;> nomatch h
  | complete l => rfl
  | error k => nomatch h

theorem FeedStop.eq_of_packetCode_rpCorrupt (h : r.packetCode unread = .rpCorrupt) :
    ∃ k, r = .error k ∧ r.value = k.number := by
  cases r with
  | exhausted => rw [packetCode_exhausted] at h; split at h <;> nomatch h
  | complete l => nomatch h
  | error k => exact ⟨k, rfl, rfl⟩

theorem FeedStop.eq_of_packetCode_waiting
    (h : r.packetCode unread = .rpNoBytes ∨ r.packetCode unread = .rpIncomplete) : r = .exhausted := by
  cases r with
  | exhausted => rfl
  | complete l => exact h.elim nofun nofun
  | error k => exact h.elim nofun nofun

end

/-! ## What `READ_PACKET` leaves in a good state -/

/-- A fresh session fed the unread region as one sequence (R122). -/
def State.unreadFeed (s : State) (destLen : Nat) : Fed :=
  feed s.dst.base (freshDecoder destLen) s.hostMem 0 s.unread

/-- The state in which the cursor, `DST` and the port show how the session went (R117, R118, R120). -/
def State.packetRead (s : State) (f : Fed) : State :=
  ({ s with hostMem := f.mem }.advanceRead f.packetAdvance).respond (f.stop.packetCode s.unread) f.stop.value
    f.packetAdvance

section
variable {s t : State} {destLen : Nat}

theorem State.Inv.unread_eq_nil (h : s.Inv) : s.unread = [] ↔ s.rc = s.wc := by
  rw [← List.length_eq_zero_iff, s.length_unread, h.occ_eq_zero]

/-- The session depends on the unread bytes, where `DST` stands and what host memory holds. -/
theorem State.unreadFeed_congr (hunread : t.unread = s.unread) (hdst : t.dst = s.dst) (hmem : t.hostMem = s.hostMem) :
    t.unreadFeed destLen = s.unreadFeed destLen := by
  rw [State.unreadFeed, State.unreadFeed, hunread, hdst, hmem]

theorem State.advanceRead_zero (h : s.rc < s.cap) : s.advanceRead 0 = s :=
  congrArg (fun rc => { s with rc := rc }) (Nat.mod_eq_of_lt h)

/-- A session that used up its bytes leaves the cursor where it was (R112, R120). -/
theorem State.Inv.packetRead_of_exhausted (h : s.Inv) {f : Fed} (hstop : f.stop = .exhausted) :
    s.packetRead f = { s with hostMem := f.mem }.respond (FeedStop.exhausted.packetCode s.unread) 0 0 := by
  have hcursor := State.advanceRead_zero (s := { s with hostMem := f.mem }) h.rcBound
  rw [State.packetRead, Fed.packetAdvance_of_exhausted hstop, hcursor, hstop]
  rfl

/-- Without bytes nothing is written either (R112). -/
theorem State.Inv.packetRead_of_empty (h : s.Inv) (hempty : s.rc = s.wc) :
    s.packetRead (s.unreadFeed destLen) = s.respond .rpNoBytes 0 0 := by
  have hnone : s.unread = [] := h.unread_eq_nil.2 hempty
  have hfeed : s.unreadFeed destLen = ⟨freshDecoder destLen, s.hostMem, .exhausted, 0⟩ := by
    rw [State.unreadFeed, hnone, feed_nil]
  rw [hfeed, h.packetRead_of_exhausted rfl, hnone]
  rfl

theorem State.Inv.finishPacket_eq_packetRead (h : s.Inv) (hne : s.unread ≠ []) (f : Fed) :
    s.finishPacket f = s.packetRead f := by
  cases hstop : f.stop with
  | exhausted =>
    rw [h.packetRead_of_exhausted hstop, FeedStop.packetCode_exhausted, if_neg hne, State.finishPacket, hstop]
  | complete l => rw [State.finishPacket, State.packetRead, Fed.packetAdvance_of_complete hstop, hstop]; rfl
  | error k => rw [State.finishPacket, State.packetRead, Fed.packetAdvance_of_error hstop, hstop]; rfl

/-- When `READ_PACKET` completes from a good state, and what it leaves (R122). -/
theorem State.Inv.exec_readPacket (h : s.Inv) {destLen : Arg} :
    exec (.readPacket destLen) s = .next t ↔
      destLen.toNat ≤ s.dst.cap ∧ t = s.packetRead (s.unreadFeed destLen.toNat) := by
  rw [Machine.exec_readPacket]
  by_cases hempty : s.rc = s.wc
  · rw [if_pos hempty, h.packetRead_of_empty hempty]
  · rw [if_neg hempty, h.packetSession_eq hempty, h.finishPacket_eq_packetRead (mt h.unread_eq_nil.1 hempty)]
    rfl

theorem State.consumed_unreadFeed_le (s : State) (destLen : Nat) :
    (s.unreadFeed destLen).consumed ≤ s.unread.length :=
  (feed_consumed_le _ _ _ 0 s.unread).trans_eq (Nat.zero_add _)

theorem State.packetAdvance_le_occ (s : State) (destLen : Nat) : (s.unreadFeed destLen).packetAdvance ≤ s.occ :=
  s.length_unread ▸ (s.unreadFeed destLen).packetAdvance_le.trans (s.consumed_unreadFeed_le destLen)

/-- What `READ_PACKET` reports; the numbers fit their fields (R110). -/
theorem State.Inv.reports_packetRead (h : s.Inv) (hdestLen : destLen < 2 ^ 24) {c : RespCode} {v0 v1 : Nat} :
    Reports (s.packetRead (s.unreadFeed destLen)).out c v0 v1 ↔
      c = (s.unreadFeed destLen).stop.packetCode s.unread ∧ v0 = (s.unreadFeed destLen).stop.value ∧
        v1 = (s.unreadFeed destLen).packetAdvance :=
  reports_respond (value_feed_lt _ _ 0 _ (inv_freshDecoder hdestLen))
    (((s.packetAdvance_le_occ destLen).trans_lt h.occ_lt).trans_le h.capHigh)

/-- The advance is gone from the front of the unread region. -/
theorem State.Inv.unread_packetRead (h : s.Inv) (destLen : Nat) :
    (s.packetRead (s.unreadFeed destLen)).unread = s.unread.drop (s.unreadFeed destLen).packetAdvance :=
  h.unread_advance (s.packetAdvance_le_occ destLen) rfl rfl rfl rfl rfl

/-- The cursor keeps its place if the session is incomplete, and otherwise moves past what it consumed. -/
theorem State.Inv.rc_packetRead (h : s.Inv) (f : Fed) :
    (s.packetRead f).rc = if f.stop.code = .pushIncomplete then s.rc else (s.rc + f.consumed) % s.cap := by
  show (s.rc + f.packetAdvance) % s.cap = _
  by_cases hstop : f.stop = .exhausted
  · rw [if_pos (FeedStop.code_eq_pushIncomplete.2 hstop), Fed.packetAdvance_of_exhausted hstop]
    exact Nat.mod_eq_of_lt h.rcBound
  · rw [if_neg (mt FeedStop.code_eq_pushIncomplete.1 hstop), Fed.packetAdvance, if_neg hstop]

/-- A session over bytes that an earlier one was fed, and more behind them, is not affected by what the earlier one
wrote to `DST`: it writes the same again (R125). -/
theorem State.Inv.unreadFeed_again (h : s.Inv) {more : List Byte} (hunread : t.unread = s.unread ++ more)
    (hdst : t.dst = s.dst) (hmem : t.hostMem = s.hostMem) :
    { t with hostMem := (s.unreadFeed destLen).mem }.unreadFeed destLen = t.unreadFeed destLen :=
  calc { t with hostMem := (s.unreadFeed destLen).mem }.unreadFeed destLen
      = feed s.dst.base (freshDecoder destLen) (s.unreadFeed destLen).mem 0 (s.unread ++ more) := by
        rw [← hdst, ← hunread]; rfl
    _ = feed s.dst.base (freshDecoder destLen) s.hostMem 0 (s.unread ++ more) := feed_again_append _ _ _ _ _ h.hostWf
    _ = t.unreadFeed destLen := by rw [← hdst, ← hmem, ← hunread]; rfl

/-- Where an `RP_INCOMPLETE` comes from: a session that used up its unread bytes (R120). -/
theorem State.Inv.packetRead_of_reports_incomplete (h : s.Inv) (hdestLen : destLen < 2 ^ 24)
    (hr : Reports (s.packetRead (s.unreadFeed destLen)).out .rpIncomplete 0 0) :
    s.packetRead (s.unreadFeed destLen) =
      { s with hostMem := (s.unreadFeed destLen).mem }.respond .rpIncomplete 0 0 := by
  obtain ⟨hcode, -, -⟩ := (h.reports_packetRead hdestLen).1 hr
  have hstop := FeedStop.eq_of_packetCode_waiting (.inr hcode.symm)
  rw [h.packetRead_of_exhausted hstop, ← hstop, ← hcode]

end

/-! ## The session as a `DEC_PUSH` (R122) -/

/-- A fresh decoder with the unread bytes as its `SRC`, beside `DST`. -/
def State.pushingUnread (s : State) (destLen : Nat) : State :=
  { s with dec := freshDecoder destLen, src := ⟨s.dst.base + s.dst.cap, s.unread⟩ }

section
variable {s : State} {destLen : Nat}

theorem State.Inv.length_unread_lt (h : s.Inv) : s.unread.length < 2 ^ 24 :=
  s.length_unread ▸ h.occ_lt.trans_le h.capHigh

theorem State.Inv.exec_pushingUnread (h : s.Inv) (hroom : destLen ≤ s.dst.cap) :
    exec (.decPush (argOfLength s.unread.length)) (s.pushingUnread destLen) =
      .next ((s.pushingUnread destLen).pushed (s.unreadFeed destLen)) :=
  exec_decPush_eq (s := s.pushingUnread destLen) hroom (fun _ ⟨⟨hsrc, _⟩, _, hdst⟩ => absurd hdst (Nat.not_lt.2 hsrc))
    h.length_unread_lt

theorem State.Inv.reports_pushingUnread (h : s.Inv) (hdestLen : destLen < 2 ^ 24) :
    Reports ((s.pushingUnread destLen).pushed (s.unreadFeed destLen)).out (s.unreadFeed destLen).stop.code
      (s.unreadFeed destLen).stop.value (s.unreadFeed destLen).consumed :=
  (State.reports_pushed (inv_freshDecoder hdestLen) h.length_unread_lt).2 ⟨rfl, rfl, rfl⟩

/-- The session makes the progress of a `DEC_PUSH` from a fresh decoder (R103, R108). -/
theorem State.Inv.unreadFeed_progress (h : s.Inv) (hdestLen : destLen < 2 ^ 24) (hroom : destLen ≤ s.dst.cap) :
    (∀ k, (s.unreadFeed destLen).stop = .error k → 1 ≤ (s.unreadFeed destLen).consumed) ∧
      ∀ l, (s.unreadFeed destLen).stop = .complete l → 2 ≤ (s.unreadFeed destLen).consumed := by
  have hpush := (freshSessionsMakeProgress (s.pushingUnread destLen) _ rfl rfl rfl hdestLen).2 _
    (s.unreadFeed destLen).stop.value (s.unreadFeed destLen).consumed (h.exec_pushingUnread hroom)
  have hreports := h.reports_pushingUnread hdestLen
  exact ⟨fun k hstop => hpush.1 (by rwa [hstop] at hreports ⊢), fun l hstop => hpush.2 (by rwa [hstop] at hreports ⊢)⟩

end

/-! ## The obligations -/

/-- Settles O33: the push and the `READ_PACKET` are the same feed, by how it stopped. -/
theorem readPacketIsLinearDecode : Obligations.ReadPacketIsLinearDecode := by
  intro s destLen h hroom
  have hpush := h.reports_pushingUnread destLen.isLt
  have hread := (h.reports_packetRead destLen.isLt).2 ⟨rfl, rfl, rfl⟩
  have hstate : s.packetRead (s.unreadFeed destLen.toNat) = { s with
      hostMem := (s.unreadFeed destLen.toNat).mem
      rc := if (s.unreadFeed destLen.toNat).stop.code = .pushIncomplete then s.rc
        else (s.rc + (s.unreadFeed destLen.toNat).consumed) % s.cap
      out := (s.packetRead (s.unreadFeed destLen.toNat)).out } := by
    rw [← h.rc_packetRead]; rfl
  refine ⟨_, _, _, _, _, h.exec_pushingUnread hroom, hpush, h.exec_readPacket.2 ⟨hroom, hstate.symm⟩, ?_⟩
  cases hstop : (s.unreadFeed destLen.toNat).stop with
  | complete l =>
    rw [Fed.packetAdvance_of_complete hstop, hstop] at hread
    exact .inl ⟨rfl, hread⟩
  | error k =>
    rw [Fed.packetAdvance_of_error hstop, hstop] at hread
    exact .inr (.inl ⟨rfl, hread⟩)
  | exhausted =>
    have hcode : FeedStop.exhausted.packetCode s.unread = if s.rc = s.wc then .rpNoBytes else .rpIncomplete :=
      if_congr h.unread_eq_nil rfl rfl
    rw [Fed.packetAdvance_of_exhausted hstop, hstop, hcode] at hread
    exact .inr (.inr ⟨rfl, hread⟩)

/-- Settles O34: the outcome and the advance are those of the session, which is the same in both states. -/
theorem straddlingMakesNoDifference : Obligations.StraddlingMakesNoDifference := by
  intro s s' t destLen h h' hunread hdst hmem he
  obtain ⟨hroom, rfl⟩ := h.exec_readPacket.1 he
  have hfeed : s'.unreadFeed destLen.toNat = s.unreadFeed destLen.toNat := State.unreadFeed_congr hunread hdst hmem
  refine ⟨_, h'.exec_readPacket.2 ⟨hdst ▸ hroom, rfl⟩, ?_, ?_, ?_⟩
  · rw [hfeed, State.packetRead, State.packetRead, hunread]; rfl
  · rw [hfeed]; rfl
  · rw [h'.unread_packetRead, h.unread_packetRead, hfeed, hunread]

/-- Settles O35: a session writes no byte outside the slice it is given. -/
theorem readPacketWritesOnlyCursorAndDst : Obligations.ReadPacketWritesOnlyCursorAndDst := by
  intro s t destLen he
  obtain ⟨-, rfl⟩ := exec_readPacket.1 he
  split
  case isTrue => exact ⟨rfl, fun _ _ => rfl⟩
  case isFalse =>
    refine ⟨?_, fun a ha => ?_⟩
    · conv_lhs => rw [State.finishPacket_eq]
      rw [State.finishPacket_hostMem]
    · rw [State.finishPacket_hostMem, State.packetSession, freshFed, feedRuns_eq_feed]
      exact read_feed_outside _ _ _ _ (inv_freshDecoder destLen.isLt) a ha

/-- Settles O36: the progress is that of the session, and an incomplete one has no advance. -/
theorem readPacketMakesProgress : Obligations.ReadPacketMakesProgress := by
  intro s t destLen c v0 v1 h he hr
  obtain ⟨hroom, rfl⟩ := h.exec_readPacket.1 he
  obtain ⟨rfl, -, rfl⟩ := (h.reports_packetRead destLen.isLt).1 hr
  obtain ⟨herror, hcomplete⟩ := h.unreadFeed_progress destLen.isLt hroom
  refine ⟨fun hc => ?_, fun hc => ?_, fun hc => ?_, ?_, rfl, h.unread_packetRead _⟩
  · have hstop := FeedStop.eq_of_packetCode_rpOk hc
    exact Fed.packetAdvance_of_complete hstop ▸ hcomplete _ hstop
  · obtain ⟨k, hstop, -⟩ := FeedStop.eq_of_packetCode_rpCorrupt hc
    exact Fed.packetAdvance_of_error hstop ▸ herror k hstop
  · exact Fed.packetAdvance_of_exhausted (FeedStop.eq_of_packetCode_waiting hc)
  · exact s.length_unread ▸ s.packetAdvance_le_occ _

/-- Settles O37: the advance is the number of bytes before the offending one. -/
theorem corruptStopsAtOffendingByte : Obligations.CorruptStopsAtOffendingByte := by
  intro s t destLen k adv h he hr
  obtain ⟨-, rfl⟩ := h.exec_readPacket.1 he
  obtain ⟨hcode, rfl, -⟩ := (h.reports_packetRead destLen.isLt).1 hr
  obtain ⟨kind, hstop, hvalue⟩ := FeedStop.eq_of_packetCode_rpCorrupt hcode.symm
  obtain ⟨i, hcount, -, -, -, hi, hkind⟩ := feed_error hstop
  have hadv : (s.unreadFeed destLen.toNat).packetAdvance = i :=
    (Fed.packetAdvance_of_error hstop).trans (hcount.trans (Nat.zero_add i))
  refine ⟨s.unread[i], s.unread.drop (i + 1), ?_, ?_⟩
  · rw [h.unread_packetRead, hadv, List.drop_eq_getElem_cons hi]
  · rw [hvalue]
    exact hkind.imp (fun ⟨hk, hb⟩ => ⟨hk ▸ rfl, hb⟩) fun ⟨hk, hb⟩ => ⟨hk ▸ rfl, hb⟩

/-- Settles O38: a session completes at a zero byte, the last one it counts. -/
theorem packetNeedsItsDelimiterUnread : Obligations.PacketNeedsItsDelimiterUnread := by
  intro s t destLen l adv h he hr
  obtain ⟨-, rfl⟩ := h.exec_readPacket.1 he
  obtain ⟨hcode, rfl, rfl⟩ := (h.reports_packetRead destLen.isLt).1 hr
  have hstop := FeedStop.eq_of_packetCode_rpOk hcode.symm
  obtain ⟨i, hcount, hzero⟩ := feed_complete hstop
  have hadv : (s.unreadFeed destLen.toNat).packetAdvance = i + 1 :=
    (Fed.packetAdvance_of_complete hstop).trans (hcount.trans (by omega))
  have hunread : s.unread.length ≤ s.cap - 1 := s.length_unread ▸ Nat.le_sub_one_of_lt h.occ_lt
  refine ⟨hunread, (s.length_unread ▸ s.packetAdvance_le_occ _ :).trans hunread, ?_,
    feed_length_le (inv_freshDecoder destLen.isLt) _ hstop⟩
  rw [hadv]
  exact hzero

/-- Settles O39: the second session is fed the same bytes over the memory that the first one left. Host memory and the
port before a session are no part of `packetRead`, so with the same session the two states it leaves are equal as written. -/
theorem incompletePollIsIdempotent : Obligations.IncompletePollIsIdempotent := by
  intro s t destLen h he hr
  have ht : t.Inv := exec_keeps_inv h he
  obtain ⟨hroom, rfl⟩ := h.exec_readPacket.1 he
  have hpoll := h.packetRead_of_reports_incomplete destLen.isLt hr
  have hagain : (s.packetRead (s.unreadFeed destLen.toNat)).unreadFeed destLen.toNat = s.unreadFeed destLen.toNat := by
    rw [hpoll]
    exact h.unreadFeed_again (List.append_nil _).symm rfl rfl
  refine ⟨(congrArg State.rc hpoll :), ht.exec_readPacket.2 ⟨hroom, ?_⟩⟩
  rw [hagain, hpoll]
  exact hpoll.symm

/-- Settles O40: the two states before the last `READ_PACKET` differ in what the first one wrote to `DST`, and the last
one writes that again. -/
theorem retryAfterAppendLosesNothing : Obligations.RetryAfterAppendLosesNothing := by
  intro s t v v' w w' destLen len h he hr hfits hev hew hev' hew'
  have hv : v.Inv := exec_keeps_inv (exec_keeps_inv h he) hev
  have hv' : v'.Inv := exec_keeps_inv h hev'
  obtain ⟨-, rfl⟩ := h.exec_readPacket.1 he
  have hpoll := h.packetRead_of_reports_incomplete destLen.isLt hr
  rw [hpoll] at hev
  obtain ⟨hlen, rfl⟩ := exec_bufWrite.1 hev'
  obtain ⟨-, rfl⟩ := exec_bufWrite.1 hev
  obtain ⟨-, rfl⟩ := hv.exec_readPacket.1 hew
  obtain ⟨-, rfl⟩ := hv'.exec_readPacket.1 hew'
  rw [s.length_unread, ← hlen] at hfits
  have hunread : (s.afterWrite len.toNat).unread = s.unread ++ s.src.bytes := hlen ▸ h.unread_afterWrite_of_fits hfits
  exact congrArg (s.afterWrite len.toNat).packetRead (h.unreadFeed_again hunread rfl rfl)

/-- Settles O32. -/
theorem readPacketOnEmptyBuffer : Obligations.ReadPacketOnEmptyBuffer := by
  intro s destLen hempty hroom
  exact ⟨_, s.reports_responded .rpNoBytes (by decide) (by decide), exec_readPacket.2 ⟨hroom, (if_pos hempty).symm⟩⟩

end Sys2Proof.Machine

/-! PROOFS of the statements about exceptions (60_exceptions.md): the bytes before an offending one are a push of their
own, which is incomplete and leaves the same `DST`. -/

namespace Sys2Proof.Machine

theorem FeedStop.eq_of_code_pushError {r : FeedStop} (h : r.code = .pushError) : ∃ k, r = .error k := by
  cases r with
  | exhausted => nomatch h
  | complete l => nomatch h
  | error k => exact ⟨k, rfl⟩

/-- The first bytes of `SRC` stand apart from `DST` as the whole does (R46). -/
theorem State.RegionsApart.take {s : State} (h : s.RegionsApart) (i : Nat) :
    { s with src := ⟨s.src.base, s.src.bytes.take i⟩ }.RegionsApart :=
  h.part le_rfl (Nat.add_le_add_left (List.length_take_le' i _) _)

/-- `DEC_PUSH` of the first `i` bytes of `SRC`: what it leaves, with the regions the host owes for the whole. -/
theorem exec_decPush_take {s : State} {i : Nat} (hroom : s.dec.dl ≤ s.dst.cap) (hapart : s.RegionsApart)
    (hi : i ≤ s.src.bytes.length) (hfits : s.src.bytes.length < 2 ^ 24) :
    exec (.decPush (argOfLength i)) { s with src := ⟨s.src.base, s.src.bytes.take i⟩ } =
      .next ({ s with src := ⟨s.src.base, s.src.bytes.take i⟩ }.pushed
        (feed s.dst.base s.dec s.hostMem 0 (s.src.bytes.take i))) := by
  have hlen : (s.src.bytes.take i).length = i := List.length_take_of_le hi
  have hpush := exec_decPush_eq (s := { s with src := ⟨s.src.base, s.src.bytes.take i⟩ }) hroom (hapart.take i)
    (hlen.trans_lt (hi.trans_lt hfits))
  rwa [hlen] at hpush

/-- Settles O30: feeding that stopped on an error exhausted the bytes before the offending one, which wrote the same
memory. -/
theorem pushErrorsArePrecise : Obligations.PushErrorsArePrecise := by
  intro s t len k i hinv he hr
  obtain ⟨hlen, hroom, hdisjoint, rfl⟩ := exec_decPush.1 he
  have hfits : s.src.bytes.length < 2 ^ 24 := hlen ▸ len.isLt
  rw [State.afterPush_eq_pushed] at hr ⊢
  obtain ⟨hcode, -, rfl⟩ := (State.reports_pushed hinv hfits).1 hr
  obtain ⟨kind, hstop⟩ := FeedStop.eq_of_code_pushError hcode.symm
  obtain ⟨j, hcount, hended, hbefore, hmem, hj, -⟩ := feed_error hstop
  rw [Nat.zero_add] at hcount
  have hconsumed : (feed s.dst.base s.dec s.hostMem 0 (s.src.bytes.take j)).consumed = j := by
    rw [feed_consumed_of_exhausted hbefore, Nat.zero_add, List.length_take_of_le hj.le]
  have htakeFits : (s.src.bytes.take j).length < 2 ^ 24 := (List.length_take_le' j _).trans_lt hfits
  rw [hcount]
  exact ⟨hlen ▸ hj, hended, _, exec_decPush_take hroom (s.regionsApart_iff.2 hdisjoint) hj.le hfits,
    (State.reports_pushed hinv htakeFits).2 ⟨by rw [hbefore]; rfl, by rw [hbefore]; rfl, hconsumed.symm⟩, hmem.symm⟩

end Sys2Proof.Machine

/-! PROOFS of the statements about reset and hazards (70_reset_and_hazards.md): where the port refuses a command, and
what asserting and releasing the reset input leave. -/

namespace Sys2Proof.Machine

/-! ## Commands at the wrong time

The reset input is looked at before the overlap mark, and both before the word is decoded. -/

section
variable {s : State} {r : Request} {rest : List HostEvent}

theorem step_command_beforeFirst (hpending : s.pending = .command r :: rest) (hline : s.line = .beforeFirst) :
    step s = .refused .beforeFirstReset := by
  simp [step, fetch, hpending, hline, whenReleased]

theorem step_command_asserted (hpending : s.pending = .command r :: rest) (hline : s.line = .asserted) :
    step s = .refused .resetAsserted := by
  simp [step, fetch, hpending, hline, whenReleased]

theorem step_command_overlapping (hpending : s.pending = .command r :: rest) (hline : s.line = .released)
    (hoverlap : r.overlapping = true) : step s = .refused .overlappingCommand := by
  simp [step, fetch, hpending, hline, hoverlap, whenReleased, whenSerialized]

end

/-! ## The two events of the reset input -/

section
variable {s : State} {rest : List HostEvent}

theorem step_assertReset (hpending : s.pending = .assertReset :: rest) :
    step s = .next { s with pending := rest }.assertReset := by
  simp [step, fetch, hpending]

theorem step_releaseReset (hpending : s.pending = .releaseReset :: rest) :
    step s = .next { s with pending := rest }.releaseReset := by
  simp [step, fetch, hpending]

end

/-- Both cursors are 0, whatever the capacity, so nothing is unread (R21, R141). -/
@[simp] theorem State.unread_assertReset (s : State) : s.assertReset.unread = [] := by
  have hocc : s.assertReset.occ = 0 := by simp [State.occ, fwd]
  exact List.length_eq_zero_iff.1 ((State.length_unread _).trans hocc)

/-- A reset asserted and released keeps only the capacity, the host's memory and plans, and the count of resets (R143). -/
theorem State.releaseReset_assertReset (s : State) (rest : List HostEvent) :
    { s.assertReset with pending := rest }.releaseReset =
      { State.resetWith s.cap with hostMem := s.hostMem, pending := rest, epoch := s.epoch + 1 } := rfl

/-- Settles O44: one clause for each position of the reset input. -/
theorem untimelyCommandsAreRefused : Obligations.UntimelyCommandsAreRefused := fun _ _ _ hpending =>
  ⟨step_command_beforeFirst hpending, step_command_asserted hpending, step_command_overlapping hpending⟩

/-- Settles O46. -/
theorem assertingResetClearsRegisters : Obligations.AssertingResetClearsRegisters := fun _ _ hpending =>
  ⟨_, step_assertReset hpending, rfl, rfl, rfl, rfl, rfl, rfl, rfl, State.unread_assertReset _⟩

/-- Settles O47: the second step releases the state that the first one left with the release still to come. -/
theorem resetLeavesNothingBehind : Obligations.ResetLeavesNothingBehind := by
  intro s rest hpending
  have hrelease := step_releaseReset (s := { s with pending := .releaseReset :: rest }.assertReset) rfl
  exact ⟨_, s.epoch + 1, step_assertReset hpending, hrelease.trans (congrArg _ (State.releaseReset_assertReset s rest))⟩

end Sys2Proof.Machine

/-! PROOFS of the statement about the words of the test vectors (95_test_vectors.md, section 2.5): a listed word is the
encoding of its command (R52, R53), or reserved (R54). -/

namespace Sys2Proof.Machine

theorem decode_eq_ok_of_encode {i : Instr} {w : CmdWord} (hwf : i.WellFormed) (hw : encode i = .word w) :
    decode w = .ok i :=
  (congrArg decodeEncoded hw).symm.trans (decodeOfEncode i hwf)

theorem ReservedWord.toOption_decode {w : CmdWord} (h : ReservedWord w) : (decode w).toOption = none := by
  obtain ⟨e, he⟩ := (exists_decode_eq_error_iff w).2 h
  rw [he]
  rfl

/-- Settles O58: the thirteen words of commands by their encodings, then the six reserved ones, each by its clause of
R54. -/
theorem wordsOfTheSpecDecode : Obligations.WordsOfTheSpecDecode := by
  iterate 13 refine ⟨decode_eq_ok_of_encode trivial rfl, ?_⟩
  exact ⟨ReservedWord.toOption_decode (.inl rfl),
    ReservedWord.toOption_decode (.inr (.inl (by decide))),
    ReservedWord.toOption_decode (.inr (.inl (by decide))),
    ReservedWord.toOption_decode (.inr (.inr (.inl ⟨.inl rfl, by decide⟩))),
    ReservedWord.toOption_decode (.inr (.inr (.inl ⟨.inr (.inr rfl), by decide⟩))),
    ReservedWord.toOption_decode (.inr (.inr (.inr ⟨rfl, by decide⟩)))⟩

end Sys2Proof.Machine
